-- ==== Sys2Proof/Word.lean ====
section
/-! DEFINITION. The word and the fields of an instruction word, as the spec types them
(00_scope.md R6, R9). A value held in a register or in a memory word is a 32-bit pattern;
its signed and unsigned readings are in Machine/Operands.lean. -/

namespace Sys2Proof

/-- An instruction word, a register value or a memory word: `XLEN = ILEN = 32` bits (R6, R9). -/
abbrev Word := BitVec 32

/-- A register number: a 5-bit field, every value of which names a register (R11, R59). -/
abbrev RegNo := BitVec 5

/-- A primary opcode or a function code: a 6-bit field (R6, R54, R55). -/
abbrev Code := BitVec 6

/-- The immediate: 16 raw bits, read as the unsigned number 0..65535 (R52, R58). -/
abbrev Imm := BitVec 16

end Sys2Proof
end

