-- ==== Sys2Proof/Machine/Decoded.lean ====
section
/-! DEFINITION. The value the Instruction Decoder yields (30_encoding.md R52), the decoder's ports
(R62) and the shape of a row of the opcode table (R65). -/

namespace Sys2Proof.Machine

/-- The decoded instruction: the spec's tagged union `Instruction` of three variants (R52).
There is no shift-amount field and no jump variant (90_conflicts.md C3). -/
inductive Decoded where
  /-- `RegisterForm`: what a word with opcode 0 decodes to (R54). -/
  | registerForm (sourceReg targetReg destReg : RegNo) (functionCode : Code)
  /-- `ImmediateForm`: what a word with any other opcode decodes to (R55). -/
  | immediateForm (opcode : Code) (sourceReg targetReg : RegNo) (immediate : Imm)
  /-- `Invalid`: carries no operands and is never produced by the decoder (R56). -/
  | invalid
  deriving DecidableEq, Repr

/-- The decoder's seven output ports, each a fixed slice of the input word (R62).
DESIGN CHOICE (the spec's D2, log 14), safe. -/
structure DecoderPorts where
  isImm  : Bool
  opcode : Code
  rs     : RegNo
  rt     : RegNo
  rd     : RegNo
  funct  : Code
  imm    : Imm
  deriving DecidableEq, Repr

/-- A row of the opcode table: a word is of this row when it agrees with `pattern` on the bits of
`mask`, and among the rows that match, the one of lowest `priority` is selected (R65). -/
structure OpcodeRow where
  mnemonic : String
  mask     : Word
  pattern  : Word
  priority : Nat
  deriving DecidableEq, Repr

end Sys2Proof.Machine
end

