-- ==== Sys2Proof/Syntax.lean ====
section
/-! DEFINITION. The instructions: one constructor per row of spec/opcode_table.json, operands in
the order of the fields in the word (30_encoding.md R69: source, target, destination last). -/

namespace Sys2Proof

inductive Instr where
  /-- `ADD $rs,$rt,$rd` (41 R101). -/
  | add (rs rt rd : RegNo)
  /-- `SUB $rs,$rt,$rd` (41 R102). -/
  | sub (rs rt rd : RegNo)
  /-- `AND $rs,$rt,$rd` (41 R103). -/
  | and (rs rt rd : RegNo)
  /-- `OR $rs,$rt,$rd` (41 R104). -/
  | or (rs rt rd : RegNo)
  /-- `SLT $rs,$rt,$rd` (41 R105). -/
  | slt (rs rt rd : RegNo)
  /-- `BEQ $rs,$rt,#imm`, recognised and not executed (44 R125). -/
  | beq (rs rt : RegNo) (imm : Imm)
  /-- `BNE $rs,$rt,#imm`, recognised and not executed (44 R126). -/
  | bne (rs rt : RegNo) (imm : Imm)
  /-- `ADDI $rs,$rt,#imm` (42 R110). -/
  | addi (rs rt : RegNo) (imm : Imm)
  /-- `LW $rs,$rt,#imm` (43 R116). -/
  | lw (rs rt : RegNo) (imm : Imm)
  /-- `SW $rs,$rt,#imm` (43 R117). -/
  | sw (rs rt : RegNo) (imm : Imm)
  /-- The default row of opcode 0: a function code with no row of its own (44 R129). -/
  | unknownFunction (rs rt rd : RegNo) (funct : Code)
  /-- The default row of the other opcodes: an opcode with no row of its own (44 R128). -/
  | unknownOpcode (opcode : Code) (rs rt : RegNo) (imm : Imm)
  deriving DecidableEq, Repr

end Sys2Proof
end

