-- ==== Sys2Proof/WellFormed.lean ====
section
/-! DEFINITION. Which terms of `Instr` a word can stand for. Register numbers and immediates are
legal at every value (30_encoding.md R59, R65); only the two default rows have a condition, that
their code is not one that a named row takes (the table's `applies_when`; 44 R128, R129). -/

namespace Sys2Proof

/-- The function codes of the five named R-type rows (30 R64). -/
def namedFunctions : List Code := [32, 34, 36, 37, 42]

/-- Opcode 0, the R-type group, and the opcodes of the five named I-type rows (30 R63). -/
def namedOpcodes : List Code := [0, 4, 5, 8, 35, 43]

/-- The instruction is one that some word decodes to. -/
def wellFormed : Instr → Bool
  | .add _ _ _ => true
  | .sub _ _ _ => true
  | .and _ _ _ => true
  | .or _ _ _ => true
  | .slt _ _ _ => true
  | .beq _ _ _ => true
  | .bne _ _ _ => true
  | .addi _ _ _ => true
  | .lw _ _ _ => true
  | .sw _ _ _ => true
  | .unknownFunction _ _ _ funct => !namedFunctions.contains funct
  | .unknownOpcode opcode _ _ _ => !namedOpcodes.contains opcode

end Sys2Proof
end

