-- ==== Sys2Proof/Decode.lean ====
section
/-! DEFINITION. The Instruction Decoder (30_encoding.md R51 to R61), the choice of the row of the
dispatch table (R63 to R65; 40_dispatch.md R84), and the encoder (R71). Decoding is total on 32-bit
words and refuses none of them (R51, R67). -/

namespace Sys2Proof

open Sys2Proof.Machine

/-! ## Field extraction (R54, R55) -/

/-- `w[31:26]`. -/
def opcodeField (w : Word) : Code := w.extractLsb' 26 6

/-- `w[25:21]`, the source register. -/
def rsField (w : Word) : RegNo := w.extractLsb' 21 5

/-- `w[20:16]`, the target register. -/
def rtField (w : Word) : RegNo := w.extractLsb' 16 5

/-- `w[15:11]`, the destination register. -/
def rdField (w : Word) : RegNo := w.extractLsb' 11 5

/-- `w[5:0]`, the function code. -/
def functField (w : Word) : Code := w.extractLsb' 0 6

/-- `w[15:0]`, the immediate. -/
def immField (w : Word) : Imm := w.extractLsb' 0 16

/-! ## The decoder -/

/-- The decoder's output ports (R62). -/
def decoderPorts (w : Word) : DecoderPorts where
  isImm  := opcodeField w != 0
  opcode := opcodeField w
  rs     := rsField w
  rt     := rtField w
  rd     := rdField w
  funct  := functField w
  imm    := immField w

/-- `decode` of the spec: the classification of R53, on the top six bits alone. -/
def decodeForm (w : Word) : Decoded :=
  if opcodeField w = 0 then
    .registerForm (rsField w) (rtField w) (rdField w) (functField w)
  else
    .immediateForm (opcodeField w) (rsField w) (rtField w) (immField w)

/-! ## The row of the dispatch table (R63, R64; 40 R84) -/

/-- The row of a `RegisterForm`, by its function code (R64).
UNVERIFIED (log 11), the numbers are unaudited: unsafe. -/
def registerRow (rs rt rd : RegNo) (funct : Code) : Instr :=
  if funct = 32 then .add rs rt rd
  else if funct = 34 then .sub rs rt rd
  else if funct = 36 then .and rs rt rd
  else if funct = 37 then .or rs rt rd
  else if funct = 42 then .slt rs rt rd
  else .unknownFunction rs rt rd funct

/-- The row of an `ImmediateForm`, by its opcode (R63). An opcode 0, which no word gives, under the default row (44 R128). UNVERIFIED (log 11), the numbers are unaudited: unsafe. -/
def immediateRow (opcode : Code) (rs rt : RegNo) (imm : Imm) : Instr :=
  if opcode = 8 then .addi rs rt imm
  else if opcode = 35 then .lw rs rt imm
  else if opcode = 43 then .sw rs rt imm
  else if opcode = 4 then .beq rs rt imm
  else if opcode = 5 then .bne rs rt imm
  else .unknownOpcode opcode rs rt imm

/-- The row that a decoded instruction selects; `Invalid` selects none of the table's rows. -/
def Machine.Decoded.row : Decoded → Option Instr
  | .registerForm rs rt rd funct => some (registerRow rs rt rd funct)
  | .immediateForm opcode rs rt imm => some (immediateRow opcode rs rt imm)
  | .invalid => none

/-- The instruction a word stands for. -/
def decode (w : Word) : Option Instr := (decodeForm w).row

/-- What the decoder reads from an instruction of `nbits` bits whose value is `w`. The hardware has
no byte order (20_memory.md R37), so the table's bit `k` is bit `k` of the word; bits above `nbits`
are 0. No instruction is longer than one 32-bit word (R50).
DESIGN CHOICE (log 18), a longer length is refused: safe. -/
def decodeTableWord (nbits w : Nat) : Option Instr :=
  if nbits ≤ 32 then decode (BitVec.ofNat 32 (w % 2 ^ nbits)) else none

/-! ## The encoder (R71) -/

/-- An R-type word: `(rs << 21) | (rt << 16) | (rd << 11) | f`, with bits 31-26 and, by the spec's
convention, bits 10-6 zero (R71). DESIGN CHOICE (log 15), safe. -/
def encodeR (rs rt rd : RegNo) (funct : Code) : Word :=
  rs.setWidth 32 <<< 21 ||| rt.setWidth 32 <<< 16 ||| rd.setWidth 32 <<< 11 ||| funct.setWidth 32

/-- An I-type word: `(op << 26) | (rs << 21) | (rt << 16) | imm` (R71). -/
def encodeI (opcode : Code) (rs rt : RegNo) (imm : Imm) : Word :=
  opcode.setWidth 32 <<< 26 ||| rs.setWidth 32 <<< 21 ||| rt.setWidth 32 <<< 16 ||| imm.setWidth 32

/-- The word of an instruction (R63, R64, R71). -/
def encode : Instr → Word
  | .add rs rt rd => encodeR rs rt rd 32
  | .sub rs rt rd => encodeR rs rt rd 34
  | .and rs rt rd => encodeR rs rt rd 36
  | .or rs rt rd => encodeR rs rt rd 37
  | .slt rs rt rd => encodeR rs rt rd 42
  | .beq rs rt imm => encodeI 4 rs rt imm
  | .bne rs rt imm => encodeI 5 rs rt imm
  | .addi rs rt imm => encodeI 8 rs rt imm
  | .lw rs rt imm => encodeI 35 rs rt imm
  | .sw rs rt imm => encodeI 43 rs rt imm
  | .unknownFunction rs rt rd funct => encodeR rs rt rd funct
  | .unknownOpcode opcode rs rt imm => encodeI opcode rs rt imm

/-! ## The opcode table as masks, patterns and priorities (R65) -/

/-- The ten named rows, priority 0. -/
def namedRows : List OpcodeRow :=
  [ ⟨"ADD",  0xFC00003F, 0x00000020, 0⟩, ⟨"SUB",  0xFC00003F, 0x00000022, 0⟩,
    ⟨"AND",  0xFC00003F, 0x00000024, 0⟩, ⟨"OR",   0xFC00003F, 0x00000025, 0⟩,
    ⟨"SLT",  0xFC00003F, 0x0000002A, 0⟩, ⟨"BEQ",  0xFC000000, 0x10000000, 0⟩,
    ⟨"BNE",  0xFC000000, 0x14000000, 0⟩, ⟨"ADDI", 0xFC000000, 0x20000000, 0⟩,
    ⟨"LW",   0xFC000000, 0x8C000000, 0⟩, ⟨"SW",   0xFC000000, 0xAC000000, 0⟩ ]

/-- The table: the named rows and the two default rows that make it total. -/
def opcodeTable : List OpcodeRow :=
  namedRows ++
    [ ⟨"UNKNOWN_FUNCTION", 0xFC000000, 0x00000000, 1⟩,
      ⟨"UNKNOWN_OPCODE",   0x00000000, 0x00000000, 2⟩ ]

/-- The word agrees with the row's pattern on the bits of its mask. -/
def Machine.OpcodeRow.selects (r : OpcodeRow) (w : Word) : Bool := w &&& r.mask == r.pattern

/-- The instruction's mnemonic in spec/opcode_table.json. -/
def Instr.mnemonic : Instr → String
  | .add _ _ _ => "ADD"
  | .sub _ _ _ => "SUB"
  | .and _ _ _ => "AND"
  | .or _ _ _ => "OR"
  | .slt _ _ _ => "SLT"
  | .beq _ _ _ => "BEQ"
  | .bne _ _ _ => "BNE"
  | .addi _ _ _ => "ADDI"
  | .lw _ _ _ => "LW"
  | .sw _ _ _ => "SW"
  | .unknownFunction _ _ _ _ => "UNKNOWN_FUNCTION"
  | .unknownOpcode _ _ _ _ => "UNKNOWN_OPCODE"

end Sys2Proof
end

