-- ==== Sys2Proof/Config.lean ====
section
/-! DEFINITION. The constants of the block (00_scope.md R6). No value of this hardware is left
open (40_dispatch.md R87), so there is no free value and no opaque constant here. -/

namespace Sys2Proof

/-- `NREGS`: the number of general registers, fixed because register fields are 5 bits (R6, R11). -/
abbrev Config.numRegs : Nat := 32

/-- The default of the parameter `MEM_WORDS` (R6, D15). The number itself is an argument of the block,
the field `State.memWords`; this value is used at reset and where the host gives no other. -/
def Config.memWords : Nat := 1024

/-- The value of a register or a memory word that nothing has written: reset clears both
(10_state.md R15, R20). -/
abbrev Config.resetWord : Word := 0

end Sys2Proof
end

