-- ==== Sys2Proof/Machine/State.lean ====
section
/-! DEFINITION. The state of the block as plain data (10_state.md R10 to R26), the reports
(40_dispatch.md R81, 60_exceptions.md R140), the reasons a step can stop, and the state after reset
(R26, 70_reset_and_hazards.md R160). -/

namespace Sys2Proof.Machine

/-- The two conditions the hardware signals, neither of them a trap (60 R140). -/
inductive Report where
  /-- `UnknownFunction(code)`: a `RegisterForm` whose function code has no row (44 R129). -/
  | unknownFunction (code : Code)
  /-- `UnknownOpcode(code)`, the code absent for `Invalid` alone (44 R128, R130).
  DEDUCED (log 8), unsafe for claims about the code. -/
  | unknownOpcode (code : Option Code)
  deriving DecidableEq, Repr

/-- The outcome of one `execute` (40 R81). -/
inductive ExecOutcome where
  /-- One of the eight executing rows, a skipped LW or SW included. -/
  | executed
  /-- `UnknownFunction(code)` or `UnknownOpcode(code)`. -/
  | report (r : Report)
  deriving DecidableEq, Repr

/-- The port `outcome_kind` of the Execution Unit (40 R83, the spec's choice D3, log 14). -/
inductive OutcomeKind where
  | executed
  | unknownFunction
  | unknownOpcode
  deriving DecidableEq, Repr

/-- The data memory: the words that are not zero, each under its word address, addresses strictly
rising (`Memory.wf` in Machine/Memory.lean). An address that is not listed reads as the reset value.
Words and not bytes, because the hardware has no byte view (20_memory.md R30, R37).
DESIGN CHOICE (log 1), safe: a claim about bytes cannot be stated. -/
abbrev Memory := List (Nat × Word)

/-- Why the machine stops with a fault. The hardware has no trap, exception, interrupt or stuck
state (00 R5, 60 R143, R144, R147), so there is no reason and the type has no constructor. -/
inductive Fault
  deriving DecidableEq, Repr

/-- Why a step has no meaning. -/
inductive Refusal where
  /-- Raised by an arm of `exec` for an instruction without a meaning: none is left, so it is never
  raised. Safe: the model would stop where the hardware goes on. -/
  | notModelled (mnemonic : String)
  deriving DecidableEq, Repr

/-- The block's state (R10), its parameter `MEM_WORDS` (00_scope.md R6, log 2), the program it runs
(R19, log 3) and the report trace (R25, log 5). -/
structure State where
  /-- `x[0..31]`; register 0 is an ordinary register (R11, R12). -/
  regs    : Vector Word Config.numRegs
  /-- `mem[0..MEM_WORDS-1]` (R20). -/
  mem     : Memory
  /-- `MEM_WORDS`: the number of words of the data memory, a parameter of the block that no step writes
  (00_scope.md R6, 92 D15; R20: never resized).
  DESIGN CHOICE (log 2), an argument held in the state: safe. -/
  memWords : Nat
  /-- The program counter, an index into `program` and not an address (R16).
  DESIGN CHOICE (log 9), a number without a width: unsafe for a program longer than a counter holds. -/
  pc      : Nat
  /-- `P[0..N-1]`: supplied by the host, read by the fetch alone, written by nothing (R19).
  DESIGN CHOICE (log 3), held in the state: safe as to runs. -/
  program : List Word
  /-- The reports so far, in step order, each with the index of its instruction (R25).
  DESIGN CHOICE (log 5), unsafe for claims about the trace alone. -/
  trace   : List (Nat × Report)
  deriving DecidableEq, Repr

/-- The state after reset (R26): every register and every memory word 0, the counter 0, the trace
empty. The memory size, a parameter and not state, is at its default (00_scope.md R6). The program is "not reset: supplied by the host before the first step"; with none supplied it
is empty, and the block is halted (40 R91; log 3). -/
def State.reset : State where
  regs    := Vector.replicate Config.numRegs Config.resetWord
  mem     := []
  memWords := Config.memWords
  pc      := 0
  program := []
  trace   := []

end Sys2Proof.Machine
end

