-- ==== Sys2Proof/Machine/Memory.lean ====
section
/-! DEFINITION. The operations of the data memory (20_memory.md R30 to R38), on its canonical form:
addresses strictly rising, no word equal to what an unlisted address reads as. That no address lies
outside the data space `0..MEM_WORDS-1` is a relation to the parameter, stated with the block's
invariant (Safety.lean). -/

namespace Sys2Proof.Machine

/-- `MemRead(a, 4)`: the word at word address `a` (R30, R35). A read changes nothing (R38). -/
def Memory.read : Memory → Nat → Word
  | [], _ => Config.resetWord
  | (b, v) :: m, a => if b = a then v else Memory.read m a

/-- The memory with address `a` unlisted. -/
def Memory.unlist (m : Memory) (a : Nat) : Memory := m.filter (fun c => c.1 != a)

/-- The memory with `a` listed before the first greater address. -/
def Memory.list (a : Nat) (v : Word) : Memory → Memory
  | [] => [(a, v)]
  | (b, u) :: m => if a < b then (a, v) :: (b, u) :: m else (b, u) :: Memory.list a v m

/-- `MemWrite(a, 4, v)`: replaces the word at `a` and nothing else (R35, R38), keeping the canonical
form. -/
def Memory.write (m : Memory) (a : Nat) (v : Word) : Memory :=
  if v = Config.resetWord then Memory.unlist m a else Memory.list a v (Memory.unlist m a)

/-- The canonical form: equal memories are equal lists. -/
abbrev Memory.wf (m : Memory) : Prop :=
  m.Pairwise (fun c d => c.1 < d.1) ∧ ∀ c ∈ m, c.2 ≠ Config.resetWord

end Sys2Proof.Machine
end

