-- ==== Sys2Proof/Machine/Ops.lean ====
section
/-! DEFINITION. The named operations over the state: registers, data memory, fetch, the end of an
instruction (the outcome recorded and the counter advanced), and the halted block. There is no trap
to take and none to return from (60_exceptions.md R144, R145); `State.finish` with a report is all
that an instruction without execution semantics does. -/

namespace Sys2Proof.Machine

/-- `x[r]`. Register 0 is read like any other (10_state.md R12). -/
def State.reg (s : State) (r : RegNo) : Word := s.regs[r.toNat]'r.isLt

/-- `x[r] <- v`. Register 0 is written like any other (R12). -/
def State.setReg (s : State) (r : RegNo) (v : Word) : State :=
  { s with regs := s.regs.set r.toNat v r.isLt }

/-- `MemRead(a, 4)`. -/
def State.readMem (s : State) (a : Nat) : Word := s.mem.read a

/-- `MemWrite(a, 4, v)`. -/
def State.writeMem (s : State) (a : Nat) (v : Word) : State := { s with mem := s.mem.write a v }

/-- The entry an outcome adds to the report trace: none for `Executed` (40_dispatch.md R82, R88). -/
def ExecOutcome.entries (o : ExecOutcome) (pc : Nat) : List (Nat × Report) :=
  match o with
  | .executed => []
  | .report r => [(pc, r)]

/-- The end of every step: a report is appended to the trace with the index of its instruction, and
the counter advances by exactly one whatever the outcome (40 R88, 10 R17; 90_conflicts.md C4).
DESIGN CHOICE (log 6), the outcome is read off the trace: safe. -/
def State.finish (s : State) (o : ExecOutcome) : State :=
  { s with pc := s.pc + 1, trace := s.trace ++ o.entries s.pc }

/-- The port `outcome_kind` (40 R83). -/
def ExecOutcome.kind : ExecOutcome → OutcomeKind
  | .executed => .executed
  | .report (.unknownFunction _) => .unknownFunction
  | .report (.unknownOpcode _) => .unknownOpcode

/-- The port `outcome_code`, where it means something (40 R83): not with `Executed`, and not for
`Invalid`, which has no code (44 R130). -/
def ExecOutcome.code : ExecOutcome → Option Code
  | .executed => none
  | .report (.unknownFunction code) => some code
  | .report (.unknownOpcode code) => code

/-- What a reporting row does: nothing but the report and the counter (44 R131). -/
def State.reportStep (s : State) (r : Report) : State := s.finish (.report r)

/-- `P[pc]`: the word of the next instruction, none when the block is halted (40 R88, R90). -/
def State.fetch (s : State) : Option Word := s.program[s.pc]?

/-- The block is halted: the counter has reached the program length (40 R90).
DESIGN CHOICE (log 17), a counter past it counts as halted: safe. -/
def State.halted (s : State) : Bool := s.program.length ≤ s.pc

/-- What the halted block does: nothing, and all state holds (40 R90, 92 D24).
DESIGN CHOICE (log 4), a next state and no stop: safe. -/
def haltedStep (s : State) : Host.Outcome State Fault Refusal := .next s

/-- The state with `w` as the program's word at `pc`, the words before it kept (zeros where there are
none) and the words after it kept. It stands for the host's load (70_reset_and_hazards.md R163).
DESIGN CHOICE (log 17), the zeros: safe. -/
def State.placeWord (s : State) (w : Word) : State :=
  { s with
    program := s.program.takeD s.pc 0 ++ w :: s.program.drop (s.pc + 1) }

end Sys2Proof.Machine
end

