-- ==== Sys2Proof/Machine/BranchUnknown.lean ====
section
/-! DEFINITION. The encodings that do not execute (44_branch_and_unknown.md R125 to R131): a report,
no change to a register or a memory word, and the counter advances by one. Nothing branches (R127). -/

namespace Sys2Proof.Machine

/-- BEQ: reports `UnknownOpcode(4)`; the registers are not compared (R125).
DEDUCED (log 8), the code 4: unsafe for claims about the code. -/
def execBeq (_rs _rt : RegNo) (_imm : Imm) (s : State) : Host.Outcome State Fault Refusal :=
  .next (s.reportStep (.unknownOpcode (some 4)))

/-- BNE: reports `UnknownOpcode(5)` (R126).
DEDUCED (log 8), the code 5: unsafe for claims about the code. -/
def execBne (_rs _rt : RegNo) (_imm : Imm) (s : State) : Host.Outcome State Fault Refusal :=
  .next (s.reportStep (.unknownOpcode (some 5)))

/-- An unknown function code is reported with the code, whatever the registers (R129).
DESIGN CHOICE (log 16), on an ill-formed term too, which no step runs: safe. -/
def execUnknownFunction (_rs _rt _rd : RegNo) (funct : Code) (s : State) :
    Host.Outcome State Fault Refusal :=
  .next (s.reportStep (.unknownFunction funct))

/-- An unknown opcode is reported with the code, whatever the other fields (R128).
DESIGN CHOICE (log 16), on an ill-formed term too, which no step runs: safe. -/
def execUnknownOpcode (opcode : Code) (_rs _rt : RegNo) (_imm : Imm) (s : State) :
    Host.Outcome State Fault Refusal :=
  .next (s.reportStep (.unknownOpcode (some opcode)))

/-- The `Invalid` variant, which no word decodes to, is reported without a code (R130).
DEDUCED (log 8), the absent code: unreachable, safe. -/
def execInvalid (s : State) : Host.Outcome State Fault Refusal :=
  .next (s.reportStep (.unknownOpcode none))

end Sys2Proof.Machine
end

