-- ==== Sys2Proof/Machine/Operands.lean ====
section
/-! DEFINITION. The readings of a stored value and the one addressing mode: the primitives `s32`,
`u32`, `wrap32`, `zext_32` of 00_scope.md R8 and the effective address of 43_load_store.md R115. -/

namespace Sys2Proof.Machine

/-- `s32(v)`: the signed reading, -2^31 .. 2^31-1 (R8). -/
def s32 (v : Word) : Int := v.toInt

/-- `u32(v)`: the unsigned reading, 0 .. 2^32-1 (R8). -/
def u32 (v : Word) : Nat := v.toNat

/-- `wrap32(n)`: the 32-bit value whose unsigned reading is `n mod 2^32` (R8). -/
def wrap32 (n : Int) : Word := BitVec.ofInt 32 n

/-- `zext_32(imm)`: the immediate as the number 0..65535, never sign-extended (R8; 30 R58). -/
def zext32 (imm : Imm) : Int := (imm.toNat : Int)

/-- `ea = s32(x[rs]) + zext_32(imm)`, a mathematical integer (43 R115).
DESIGN CHOICE (the spec's D5, log 21), safe: no observable difference. -/
def State.effectiveAddress (s : State) (rs : RegNo) (imm : Imm) : Int :=
  s32 (s.reg rs) + zext32 imm

/-- The word address of a load or store when its effective address is in bounds, used as it stands;
none when it is out of bounds, that is outside `0..MEM_WORDS-1` (20_memory.md R30, R33; 43 R115). -/
def State.dataAddress (s : State) (rs : RegNo) (imm : Imm) : Option Nat :=
  let ea := s.effectiveAddress rs imm
  if 0 ≤ ea ∧ ea < (s.memWords : Int) then some ea.toNat else none

end Sys2Proof.Machine
end

