-- ==== Sys2Proof/Machine/ImmediateArithmetic.lean ====
section
/-! DEFINITION. ADDI (42_immediate_arithmetic.md R110). -/

namespace Sys2Proof.Machine

/-- ADDI: `x[rt] <- wrap32(s32(x[rs]) + zext_32(imm))`; the immediate is not sign-extended (R110,
30 R58), and the sum wraps (92 D4).
DEDUCED (log 7), the wrap: unsafe on overflow. -/
def execAddi (rs rt : RegNo) (imm : Imm) (s : State) : Host.Outcome State Fault Refusal :=
  .next ((s.setReg rt (wrap32 (s32 (s.reg rs) + zext32 imm))).finish .executed)

end Sys2Proof.Machine
end

