-- ==== Sys2Proof/Machine/LoadStore.lean ====
section
/-! DEFINITION. LW and SW (43_load_store.md R115 to R118). An access out of bounds is skipped
silently: no change, no report, and the run goes on (20_memory.md R34). -/

namespace Sys2Proof.Machine

/-- LW (R116): out of bounds `x[rt]` keeps its old value. -/
def execLw (rs rt : RegNo) (imm : Imm) (s : State) : Host.Outcome State Fault Refusal :=
  match s.dataAddress rs imm with
  | some a => .next ((s.setReg rt (s.readMem a)).finish .executed)
  | none => .next (s.finish .executed)

/-- SW (R117): in bounds the whole word `x[rt]` is stored, out of bounds nothing. -/
def execSw (rs rt : RegNo) (imm : Imm) (s : State) : Host.Outcome State Fault Refusal :=
  match s.dataAddress rs imm with
  | some a => .next ((s.writeMem a (s.reg rt)).finish .executed)
  | none => .next (s.finish .executed)

end Sys2Proof.Machine
end

