-- ==== Sys2Proof/Machine/Flags.lean ====
section
/-! DEFINITION. There are no flags, condition codes or predicate registers (10_state.md R21). The one
truth value an instruction computes is that of SLT, and it goes into a general register. -/

namespace Sys2Proof.Machine

/-- A truth value as a register holds it: 1 or 0 (41_register_arithmetic.md R105). -/
def truthWord (b : Bool) : Word := if b then 1 else 0

/-- The comparison of SLT: of the signed readings, exact (R105). -/
def lessThan (a b : Word) : Bool := s32 a < s32 b

end Sys2Proof.Machine
end

