-- ==== Sys2Proof/Machine/RegisterArithmetic.lean ====
section
/-! DEFINITION. ADD, SUB, AND, OR, SLT (41_register_arithmetic.md R100 to R105): both operands are
read before the destination is written (40_dispatch.md R86), and nothing else is written. -/

namespace Sys2Proof.Machine

/-- The shape of the family: `x[rd] <- f(x[rs], x[rt])`, outcome `Executed` (R100).
DEDUCED (log 10), operands read first: unsafe when a source is the destination. -/
def registerOp (f : Word → Word → Word) (rs rt rd : RegNo) (s : State) :
    Host.Outcome State Fault Refusal :=
  .next ((s.setReg rd (f (s.reg rs) (s.reg rt))).finish .executed)

/-- ADD: the sum of the signed readings, wrapped (R101). -/
def execAdd (rs rt rd : RegNo) (s : State) : Host.Outcome State Fault Refusal :=
  registerOp (fun a b => wrap32 (s32 a + s32 b)) rs rt rd s

/-- SUB: source minus target, wrapped (R102). -/
def execSub (rs rt rd : RegNo) (s : State) : Host.Outcome State Fault Refusal :=
  registerOp (fun a b => wrap32 (s32 a - s32 b)) rs rt rd s

/-- AND, bitwise (R103). DEDUCED (log 12), the operand pattern: unsafe. -/
def execAnd (rs rt rd : RegNo) (s : State) : Host.Outcome State Fault Refusal :=
  registerOp (fun a b => a &&& b) rs rt rd s

/-- OR, bitwise (R104). DEDUCED (log 12), the operand pattern: unsafe. -/
def execOr (rs rt rd : RegNo) (s : State) : Host.Outcome State Fault Refusal :=
  registerOp (fun a b => a ||| b) rs rt rd s

/-- SLT: 1 if the source is less than the target, both signed, else 0 (R105). -/
def execSlt (rs rt rd : RegNo) (s : State) : Host.Outcome State Fault Refusal :=
  registerOp (fun a b => truthWord (lessThan a b)) rs rt rd s

end Sys2Proof.Machine
end

