-- ==== Sys2Proof/Machine/Dispatch.lean ====
section
/-! DEFINITION. The dispatch of the Execution Unit (40_dispatch.md R84): one arm per row of the
opcode table, every row with its meaning. -/

namespace Sys2Proof.Machine

def exec (i : Instr) (s : State) : Host.Outcome State Fault Refusal :=
  match i with
  | .add rs rt rd => Sys2Proof.Machine.execAdd rs rt rd s
  | .sub rs rt rd => Sys2Proof.Machine.execSub rs rt rd s
  | .and rs rt rd => Sys2Proof.Machine.execAnd rs rt rd s
  | .or rs rt rd => Sys2Proof.Machine.execOr rs rt rd s
  | .slt rs rt rd => Sys2Proof.Machine.execSlt rs rt rd s
  | .beq rs rt imm => Sys2Proof.Machine.execBeq rs rt imm s
  | .bne rs rt imm => Sys2Proof.Machine.execBne rs rt imm s
  | .addi rs rt imm => Sys2Proof.Machine.execAddi rs rt imm s
  | .lw rs rt imm => Sys2Proof.Machine.execLw rs rt imm s
  | .sw rs rt imm => Sys2Proof.Machine.execSw rs rt imm s
  | .unknownFunction rs rt rd funct => Sys2Proof.Machine.execUnknownFunction rs rt rd funct s
  | .unknownOpcode opcode rs rt imm => Sys2Proof.Machine.execUnknownOpcode opcode rs rt imm s

end Sys2Proof.Machine
end

