-- ==== Sys2Proof/Machine/Execute.lean ====
section
/-! DEFINITION. `execute` of the spec: total on the decoded-instruction type, `Invalid` included
(40_dispatch.md R80, R84). -/

namespace Sys2Proof.Machine

/-- The row the decoded instruction selects is executed; `Invalid` has a row of its own (R84, 44 R130). -/
def execute (d : Decoded) (s : State) : Host.Outcome State Fault Refusal :=
  match d.row with
  | some i => exec i s
  | none => execInvalid s

end Sys2Proof.Machine
end

