-- ==== Sys2Proof/Machine/Step.lean ====
section
/-! DEFINITION. One step of the Program Driver (40_dispatch.md R88, R90) and the host's way to place
an instruction. -/

namespace Sys2Proof.Machine

/-- One step: fetch `P[pc]`, decode, execute; the outcome is recorded and the counter advanced by the
instruction's meaning (`State.finish`). When the block is halted nothing happens (R90, log 4). -/
def step (s : State) : Host.Outcome State Fault Refusal :=
  match s.fetch with
  | some w => execute (decodeForm w) s
  | none => haltedStep s

/-- The state with the instruction of `nbits` bits and value `w` where `step` fetches next: the host's
load of that program word. DESIGN CHOICE (log 3), safe as to runs. -/
def State.withFetchWord (s : State) (nbits w : Nat) : State :=
  s.placeWord (BitVec.ofNat 32 (w % 2 ^ nbits))

end Sys2Proof.Machine
end

