-- ==== Sys2Proof/Machine/Boundary.lean ====
section
/-! DEFINITION. The host boundary (70_reset_and_hazards.md R160 to R167): how a program comes into the
block before the first step, and what is read out of it at halt. Host software is outside the hardware
(00_scope.md R4); it is modelled down to the values of hexadecimal digits and no further, because the
spelling of a literal is open (93 U7; log 13). -/

namespace Sys2Proof.Machine

/-- A token before the sentinel `end` (R163): a literal, as the values of its digits, most significant
first; or a token with a character outside the hexadecimal digit set (R165).
DESIGN CHOICE (log 13), digit values and not characters: safe for the block. -/
inductive Token where
  | literal (first : Fin 16) (rest : List (Fin 16))
  | malformed
  deriving DecidableEq, Repr

/-- The positional value of a literal, most significant digit first (R164). -/
def literalValue (first : Fin 16) (rest : List (Fin 16)) : Nat :=
  rest.foldl (fun n d => 16 * n + d.val) first.val

/-- The Word Codec: the value truncated to its low 32 bits (R164, 92 D18). -/
def literalWord (first : Fin 16) (rest : List (Fin 16)) : Word :=
  BitVec.ofNat 32 (literalValue first rest)

/-- The program the tokens build, token `k` giving `P[k]` (R163). None is `MalformedLiteral`, which
aborts the whole run before any step (R165, 60 R152). -/
def programOf : List Token → Option (List Word)
  | [] => some []
  | .malformed :: _ => none
  | .literal first rest :: ts => (programOf ts).map (literalWord first rest :: ·)

/-- The block after reset with the program in place (R160, R162; 40 R89), built with `memWords` words of
data memory: an argument with the spec's default (00_scope.md R6, 92 D15; log 2). -/
def State.load (program : List Word) (memWords : Nat := Config.memWords) : State :=
  { State.reset with program := program, memWords := memWords }

/-- Reset and load from the host's input, on a block of `memWords` words (its default where none is
given); none when the run is aborted (R163, R165). -/
def boot (input : List Token) (memWords : Nat := Config.memWords) : Option State :=
  (programOf input).map (State.load · memWords)

/-- What the host reads at halt: the 32 registers in index order, each with its signed value (R167).
Memory, counter and trace are not output (20 R45). -/
def State.output (s : State) : List (Nat × Int) :=
  List.ofFn fun i : Fin Config.numRegs => (i.val, s32 s.regs[i])

end Sys2Proof.Machine
end

