-- ==== Sys2Proof/Safety.lean ====
section
/-! DEFINITION. The terms claims are stated in: what an instruction may write, what it reports, what a
step leaves unchanged, and the invariant of the block. A run of this block is safe when it never stops
and its state meets `BlockInv` at every step. Nothing here is used by the machine. -/

namespace Sys2Proof.Machine

/-- The report of an instruction, which depends on the instruction alone (60_exceptions.md R142). -/
def reportOf : Instr → Option Report
  | .add _ _ _ => none
  | .sub _ _ _ => none
  | .and _ _ _ => none
  | .or _ _ _ => none
  | .slt _ _ _ => none
  | .addi _ _ _ => none
  | .lw _ _ _ => none
  | .sw _ _ _ => none
  | .beq _ _ _ => some (.unknownOpcode (some 4))
  | .bne _ _ _ => some (.unknownOpcode (some 5))
  | .unknownFunction _ _ _ funct => some (.unknownFunction funct)
  | .unknownOpcode opcode _ _ _ => some (.unknownOpcode (some opcode))

/-- The outcome of executing a decoded instruction, by the numbers of the dispatch table (40 R81, R84);
it depends on the decoded instruction alone (60 R142). -/
def outcomeOf : Decoded → ExecOutcome
  | .registerForm _ _ _ funct =>
    if funct.toNat ∈ [32, 34, 36, 37, 42] then .executed else .report (.unknownFunction funct)
  | .immediateForm opcode _ _ _ =>
    if opcode.toNat ∈ [8, 35, 43] then .executed else .report (.unknownOpcode (some opcode))
  | .invalid => .report (.unknownOpcode none)

/-- The register an instruction may write (10_state.md R13). -/
def destOf : Instr → Option RegNo
  | .add _ _ rd => some rd
  | .sub _ _ rd => some rd
  | .and _ _ rd => some rd
  | .or _ _ rd => some rd
  | .slt _ _ rd => some rd
  | .addi _ rt _ => some rt
  | .lw _ rt _ => some rt
  | .sw _ _ _ => none
  | .beq _ _ _ => none
  | .bne _ _ _ => none
  | .unknownFunction _ _ _ _ => none
  | .unknownOpcode _ _ _ _ => none

/-- The registers an instruction reads (10_state.md R13). -/
def sourcesOf : Instr → List RegNo
  | .add rs rt _ => [rs, rt]
  | .sub rs rt _ => [rs, rt]
  | .and rs rt _ => [rs, rt]
  | .or rs rt _ => [rs, rt]
  | .slt rs rt _ => [rs, rt]
  | .addi rs _ _ => [rs]
  | .lw rs _ _ => [rs]
  | .sw rs rt _ => [rs, rt]
  | .beq _ _ _ => []
  | .bne _ _ _ => []
  | .unknownFunction _ _ _ _ => []
  | .unknownOpcode _ _ _ _ => []

/-- The word address an instruction stores to from `s`: SW's, when it is in bounds (43 R117). -/
def storeAddressOf (i : Instr) (s : State) : Option Nat :=
  match i with
  | .sw rs _ imm => s.dataAddress rs imm
  | .add _ _ _ => none
  | .sub _ _ _ => none
  | .and _ _ _ => none
  | .or _ _ _ => none
  | .slt _ _ _ => none
  | .addi _ _ _ => none
  | .lw _ _ _ => none
  | .beq _ _ _ => none
  | .bne _ _ _ => none
  | .unknownFunction _ _ _ _ => none
  | .unknownOpcode _ _ _ _ => none

/-- The next step from `s` stores to word address `a`. -/
def storesTo (s : State) (a : Nat) : Prop :=
  ∃ w i, s.fetch = some w ∧ decode w = some i ∧ storeAddressOf i s = some a

/-- Every register but the named one reads as before. -/
def SameRegsExcept (dest : Option RegNo) (s t : State) : Prop :=
  ∀ r, some r ≠ dest → t.reg r = s.reg r

/-- Every memory word but the named one reads as before. -/
def SameMemExcept (stored : Option Nat) (s t : State) : Prop :=
  ∀ a, some a ≠ stored → t.readMem a = s.readMem a

/-- What no instruction writes: the program (10_state.md R19) and the size of the data memory (10 R20,
00_scope.md R6). -/
def SameParameters (s t : State) : Prop :=
  t.program = s.program ∧ t.memWords = s.memWords

/-- The step's outcome is `Executed`: the counter advances, nothing is reported, and the parameters of
the run stand (40 R88). -/
def EndsExecuted (s t : State) : Prop :=
  t.pc = s.pc + 1 ∧ t.trace = s.trace ∧ SameParameters s t

/-- The step reports `r` and does nothing else (44 R131). -/
def OnlyReports (r : Report) (s t : State) : Prop :=
  SameRegsExcept none s t ∧ SameMemExcept none s t ∧
    t.pc = s.pc + 1 ∧ t.trace = s.trace ++ [(s.pc, r)] ∧ SameParameters s t

/-- The report of the instruction a program word stands for. -/
def reportOfWord (w : Word) : Option Report := (decode w).bind reportOf

/-- `k` steps, stopping at the first fault or refusal: `core.run`, over this model's own types (40 R89). -/
def run : Nat → State → Host.Outcome State Fault Refusal
  | 0, s => .next s
  | k + 1, s =>
    match step s with
    | .next t => run k t
    | .fault r => .fault r
    | .refused r => .refused r

/-- The trace of the words from index `k` on, in order: an entry for each word that reports (R25). -/
def tracedFrom (k : Nat) : List Word → List (Nat × Report)
  | [] => []
  | w :: ws => (reportOfWord w).toList.map (fun r => (k, r)) ++ tracedFrom (k + 1) ws

/-- What every step keeps: the memory is in canonical form (log 1) and lists nothing outside the data
space (20_memory.md R31, R32), the counter has not passed the program's end (10 R18), and the trace is
exactly that of the words executed so far (10 R25, 44 R131). -/
def BlockInv (s : State) : Prop :=
  Memory.wf s.mem ∧ (∀ c ∈ s.mem, c.1 < s.memWords) ∧ s.pc ≤ s.program.length ∧
    s.trace = tracedFrom 0 (s.program.take s.pc)

end Sys2Proof.Machine
end

