-- ==== Sys2Proof/Certificates/Slice0/Obligations.lean ====
section
/-! DEFINITION. The statements for the provers, from the numbered rules of spec/. Registers, words and
fields are read here by the spec's own formulas (toInt for s32, toNat for u32 and zext_32, `/` and `%`
for a bit slice), not by the helpers the meanings use. `MEM_WORDS` is the parameter `memWords` of the
state (00_scope.md R6, log 2), 1024 by default: a statement over all states holds at every value of it.
That nothing writes it, a clause of `SameParameters`, is 10_state.md R20 ("never resized").
A statement whose docstring names a log entry
rests there on a choice of the model's or on a decision the spec marks as its own. -/

open Sys2Proof Sys2Proof.Machine

/-! ## Register-register arithmetic (41_register_arithmetic.md) -/

/-- R101. ADD: its words, its result, its frame, and that it completes in every state. -/
def Obligations.AddWritesWrappedSum : Prop :=
  (∀ w : Word, w &&& 0xFC00003F = 0x00000020 ↔
    decode w = some (.add (w.extractLsb' 21 5) (w.extractLsb' 16 5) (w.extractLsb' 11 5))) ∧
  ∀ (s : State) (rs rt rd : RegNo), ∃ t, exec (.add rs rt rd) s = .next t ∧
    ((t.reg rd).toNat : Int) = ((s.reg rs).toInt + (s.reg rt).toInt) % 2 ^ 32 ∧
    SameRegsExcept (some rd) s t ∧ SameMemExcept none s t ∧ EndsExecuted s t

/-- R102. SUB: the source register is the minuend. -/
def Obligations.SubWritesWrappedDifference : Prop :=
  (∀ w : Word, w &&& 0xFC00003F = 0x00000022 ↔
    decode w = some (.sub (w.extractLsb' 21 5) (w.extractLsb' 16 5) (w.extractLsb' 11 5))) ∧
  ∀ (s : State) (rs rt rd : RegNo), ∃ t, exec (.sub rs rt rd) s = .next t ∧
    ((t.reg rd).toNat : Int) = ((s.reg rs).toInt - (s.reg rt).toInt) % 2 ^ 32 ∧
    SameRegsExcept (some rd) s t ∧ SameMemExcept none s t ∧ EndsExecuted s t

/-- R103. AND, bit by bit. That the operands are `x[rs]`, `x[rt]` and the destination `x[rd]` is the
spec's decision D25 (log 12). -/
def Obligations.AndWritesBitwiseAnd : Prop :=
  (∀ w : Word, w &&& 0xFC00003F = 0x00000024 ↔
    decode w = some (.and (w.extractLsb' 21 5) (w.extractLsb' 16 5) (w.extractLsb' 11 5))) ∧
  ∀ (s : State) (rs rt rd : RegNo), ∃ t, exec (.and rs rt rd) s = .next t ∧
    (∀ k < 32, (t.reg rd).getLsbD k = ((s.reg rs).getLsbD k && (s.reg rt).getLsbD k)) ∧
    SameRegsExcept (some rd) s t ∧ SameMemExcept none s t ∧ EndsExecuted s t

/-- R104. OR, bit by bit. The operands are the spec's decision D25 (log 12). -/
def Obligations.OrWritesBitwiseOr : Prop :=
  (∀ w : Word, w &&& 0xFC00003F = 0x00000025 ↔
    decode w = some (.or (w.extractLsb' 21 5) (w.extractLsb' 16 5) (w.extractLsb' 11 5))) ∧
  ∀ (s : State) (rs rt rd : RegNo), ∃ t, exec (.or rs rt rd) s = .next t ∧
    (∀ k < 32, (t.reg rd).getLsbD k = ((s.reg rs).getLsbD k || (s.reg rt).getLsbD k)) ∧
    SameRegsExcept (some rd) s t ∧ SameMemExcept none s t ∧ EndsExecuted s t

/-- R105. SLT: the exact comparison of the signed readings. -/
def Obligations.SltWritesSignedComparison : Prop :=
  (∀ w : Word, w &&& 0xFC00003F = 0x0000002A ↔
    decode w = some (.slt (w.extractLsb' 21 5) (w.extractLsb' 16 5) (w.extractLsb' 11 5))) ∧
  ∀ (s : State) (rs rt rd : RegNo), ∃ t, exec (.slt rs rt rd) s = .next t ∧
    t.reg rd = (if (s.reg rs).toInt < (s.reg rt).toInt then 1 else 0) ∧
    SameRegsExcept (some rd) s t ∧ SameMemExcept none s t ∧ EndsExecuted s t

/-- R106. The bits of a sum or a difference do not depend on the reading: they are also those of the
unsigned readings, modulo 2^32. -/
def Obligations.SumBitsAreTheSameUnsigned : Prop :=
  ∀ (s : State) (rs rt rd : RegNo),
    (∃ t, exec (.add rs rt rd) s = .next t ∧
      (t.reg rd).toNat = ((s.reg rs).toNat + (s.reg rt).toNat) % 2 ^ 32) ∧
    (∃ t, exec (.sub rs rt rd) s = .next t ∧
      ((t.reg rd).toNat : Int) = ((s.reg rs).toNat - (s.reg rt).toNat : Int) % 2 ^ 32)

/-! ## Immediate arithmetic (42_immediate_arithmetic.md) -/

/-- R110. ADDI: the immediate is added as the number 0..65535. That the sum wraps is the spec's
decision D4 (log 7). -/
def Obligations.AddiAddsTheUnsignedImmediate : Prop :=
  (∀ w : Word, w &&& 0xFC000000 = 0x20000000 ↔
    decode w = some (.addi (w.extractLsb' 21 5) (w.extractLsb' 16 5) (w.extractLsb' 0 16))) ∧
  ∀ (s : State) (rs rt : RegNo) (imm : Imm), ∃ t, exec (.addi rs rt imm) s = .next t ∧
    ((t.reg rt).toNat : Int) = ((s.reg rs).toInt + (imm.toNat : Int)) % 2 ^ 32 ∧
    SameRegsExcept (some rt) s t ∧ SameMemExcept none s t ∧ EndsExecuted s t

/-! ## Loads and stores (43_load_store.md, 20_memory.md) -/

/-- R116. LW: in bounds the whole word at the effective address, out of bounds the old value. -/
def Obligations.LwLoadsInBoundsAndSkipsOutOfBounds : Prop :=
  (∀ w : Word, w &&& 0xFC000000 = 0x8C000000 ↔
    decode w = some (.lw (w.extractLsb' 21 5) (w.extractLsb' 16 5) (w.extractLsb' 0 16))) ∧
  ∀ (s : State) (rs rt : RegNo) (imm : Imm), ∃ t, exec (.lw rs rt imm) s = .next t ∧
    (∀ a : Nat, a < s.memWords → (s.reg rs).toInt + (imm.toNat : Int) = a → t.reg rt = s.readMem a) ∧
    ((s.reg rs).toInt + (imm.toNat : Int) < 0 ∨
      (s.memWords : Int) ≤ (s.reg rs).toInt + (imm.toNat : Int) → t.reg rt = s.reg rt) ∧
    SameRegsExcept (some rt) s t ∧ SameMemExcept none s t ∧ EndsExecuted s t

/-- R117. SW: exactly the word at the effective address is replaced, and only in bounds. Every memory
word after the step is given. -/
def Obligations.SwStoresInBoundsAndSkipsOutOfBounds : Prop :=
  (∀ w : Word, w &&& 0xFC000000 = 0xAC000000 ↔
    decode w = some (.sw (w.extractLsb' 21 5) (w.extractLsb' 16 5) (w.extractLsb' 0 16))) ∧
  ∀ (s : State) (rs rt : RegNo) (imm : Imm), ∃ t, exec (.sw rs rt imm) s = .next t ∧
    (∀ a : Nat, t.readMem a =
      if a < s.memWords ∧ (s.reg rs).toInt + (imm.toNat : Int) = a then s.reg rt else s.readMem a) ∧
    SameRegsExcept none s t ∧ EndsExecuted s t

/-- R34. Out of bounds, a load and a store are silently skipped: nothing changes, nothing is reported,
and the run goes on to the next instruction. -/
def Obligations.OutOfBoundsAccessesAreSilentlySkipped : Prop :=
  ∀ (s : State) (rs rt : RegNo) (imm : Imm),
    ((s.reg rs).toInt + (imm.toNat : Int) < 0 ∨
      (s.memWords : Int) ≤ (s.reg rs).toInt + (imm.toNat : Int)) →
    ∀ i ∈ [Instr.lw rs rt imm, .sw rs rt imm], ∃ t, exec i s = .next t ∧
      SameRegsExcept none s t ∧ SameMemExcept none s t ∧ EndsExecuted s t

/-- R115. The accesses in bounds are the same whether the sum is a mathematical integer or wraps to
32 bits, read as unsigned or as signed (D5, log 21). Addresses are below 2^31, where the 32-bit sum can
hold them: all of them at the default 1024. -/
def Obligations.BoundsAreTheSameUnderThreeReadings : Prop :=
  ∀ (s : State) (rs : RegNo) (imm : Imm) (a : Nat), a < s.memWords → a < 2 ^ 31 →
    ((s.reg rs).toInt + (imm.toNat : Int) = a ↔ s.dataAddress rs imm = some a) ∧
    ((s.reg rs + imm.setWidth 32).toNat = a ↔ s.dataAddress rs imm = some a) ∧
    ((s.reg rs + imm.setWidth 32).toInt = a ↔ s.dataAddress rs imm = some a)

/-- R40. A memory word that no step of a run stores to keeps its value over the whole run (steps of a
halted block included: log 4). -/
def Obligations.UnstoredWordsKeepTheirValueOverARun : Prop :=
  ∀ (s u : State) (k a : Nat), run k s = .next u →
    (∀ j < k, ∀ v, run j s = .next v → ¬ storesTo v a) → u.readMem a = s.readMem a

/-- R40, R119. A load whose address a store wrote, with no store to it between them, loads the stored
register's value, however many steps lie between (log 4 for steps of a halted block). -/
def Obligations.LoadReturnsTheLatestStore : Prop :=
  ∀ (s t u : State) (k a : Nat) (w w' : Word) (rs rt rs' rt' : RegNo) (imm imm' : Imm),
    a < s.memWords →
    s.program[s.pc]? = some w → decode w = some (.sw rs rt imm) →
    (s.reg rs).toInt + (imm.toNat : Int) = a → step s = .next t →
    run k t = .next u → (∀ j < k, ∀ v, run j t = .next v → ¬ storesTo v a) →
    u.program[u.pc]? = some w' → decode w' = some (.lw rs' rt' imm') →
    (u.reg rs').toInt + (imm'.toNat : Int) = a →
    ∃ v, step u = .next v ∧ v.reg rt' = s.reg rt

/-- The memory's form is canonical: two memories in it that read alike at every address are equal
data (the model's own form, log 1). -/
def Obligations.MemoriesThatReadAlikeAreEqual : Prop :=
  ∀ m m' : Memory, m.wf → m'.wf → (∀ a, m.read a = m'.read a) → m = m'

/-! ## The encodings that report (44_branch_and_unknown.md) -/

/-- R125. BEQ only reports, whether or not its registers are equal. The code 4 is the spec's decision
D9 (log 8), the form of the entry D7 (log 5). -/
def Obligations.BeqOnlyReports : Prop :=
  (∀ w : Word, w &&& 0xFC000000 = 0x10000000 ↔
    decode w = some (.beq (w.extractLsb' 21 5) (w.extractLsb' 16 5) (w.extractLsb' 0 16))) ∧
  ∀ (s : State) (rs rt : RegNo) (imm : Imm), ∃ t, exec (.beq rs rt imm) s = .next t ∧
    OnlyReports (.unknownOpcode (some 4)) s t

/-- R126. BNE only reports. The code 5 is the spec's decision D9 (log 8), the form of the entry D7
(log 5). -/
def Obligations.BneOnlyReports : Prop :=
  (∀ w : Word, w &&& 0xFC000000 = 0x14000000 ↔
    decode w = some (.bne (w.extractLsb' 21 5) (w.extractLsb' 16 5) (w.extractLsb' 0 16))) ∧
  ∀ (s : State) (rs rt : RegNo) (imm : Imm), ∃ t, exec (.bne rs rt imm) s = .next t ∧
    OnlyReports (.unknownOpcode (some 5)) s t

/-- R129. The other 59 function codes under opcode 0, as fields of the word; the entry's form is D7
(log 5). The second clause ranges over all 64 codes: that the ill-formed terms with 32, 34, 36, 37 and
42, to which no word decodes, report their code too is the model's choice (log 16). -/
def Obligations.UnknownFunctionOnlyReports : Prop :=
  (∀ w : Word,
    (w.toNat / 2 ^ 26 = 0 ∧ w.toNat % 2 ^ 6 ∉ [32, 34, 36, 37, 42]) ↔
    decode w = some (.unknownFunction (w.extractLsb' 21 5) (w.extractLsb' 16 5)
      (w.extractLsb' 11 5) (w.extractLsb' 0 6))) ∧
  ∀ (s : State) (rs rt rd : RegNo) (funct : Code),
    ∃ t, exec (.unknownFunction rs rt rd funct) s = .next t ∧
      OnlyReports (.unknownFunction funct) s t

/-- R128. The opcodes that no row names, as fields of the word; the entry's form is D7 (log 5). The
second clause ranges over all 64 opcodes: that the ill-formed terms with 4, 5, 8, 35 and 43, to which no
word decodes, report their opcode too is the model's choice (log 16, which has the ill-formed opcode 0
as well). -/
def Obligations.UnknownOpcodeOnlyReports : Prop :=
  (∀ w : Word,
    w.toNat / 2 ^ 26 ∉ [0, 4, 5, 8, 35, 43] ↔
    decode w = some (.unknownOpcode (w.extractLsb' 26 6) (w.extractLsb' 21 5)
      (w.extractLsb' 16 5) (w.extractLsb' 0 16))) ∧
  ∀ (s : State) (opcode : Code) (rs rt : RegNo) (imm : Imm),
    ∃ t, exec (.unknownOpcode opcode rs rt imm) s = .next t ∧
      OnlyReports (.unknownOpcode (some opcode)) s t

/-- R128, R130. The two values of the decoded-instruction type that no word gives: an `ImmediateForm`
with opcode 0 reports that opcode, `Invalid` reports without a code (D8, log 8). The entry's form is
D7 (log 5). -/
def Obligations.UndecodableFormsOnlyReport : Prop :=
  (∀ w : Word, decodeForm w ≠ .invalid ∧ ∀ rs rt imm, decodeForm w ≠ .immediateForm 0 rs rt imm) ∧
  ∀ (s : State) (rs rt : RegNo) (imm : Imm),
    (∃ t, execute .invalid s = .next t ∧ OnlyReports (.unknownOpcode none) s t) ∧
    (∃ t, execute (.immediateForm 0 rs rt imm) s = .next t ∧
      OnlyReports (.unknownOpcode (some 0)) s t)

/-- R80, R81, R84. `execute` is total on the decoded-instruction type, and its outcome is that of the
dispatch table: `Executed` adds no entry to the trace, a report adds its own (the entry's form is D7,
log 5), with the port values of R83 (D3, log 14; read off the trace, log 6). The codes 4 and 5 of BEQ and
BNE are D9, the absent code of `Invalid` is D8 (log 8). -/
def Obligations.ExecuteIsTotalWithTheTablesOutcome : Prop :=
  ∀ (d : Decoded) (s : State), ∃ t, execute d s = .next t ∧ t.pc = s.pc + 1 ∧
    ((outcomeOf d).kind = .executed → t.trace = s.trace) ∧
    ((outcomeOf d).kind = .unknownFunction → ∃ code, (outcomeOf d).code = some code ∧
      OnlyReports (.unknownFunction code) s t) ∧
    ((outcomeOf d).kind = .unknownOpcode → OnlyReports (.unknownOpcode (outcomeOf d).code) s t)

/-- R131, R67. A step executes exactly the eight executing encodings and adds no entry for them; on
every other word it changes nothing but the counter and the trace, by one entry with the function code
or the opcode (the entry's form is D7, log 5; that the words of BEQ and BNE carry the codes 4 and 5 is
D9, log 8). -/
def Obligations.StepsReportExactlyTheOtherEncodings : Prop :=
  ∀ (s : State) (w : Word), s.program[s.pc]? = some w →
    ∃ t, step s = .next t ∧ t.pc = s.pc + 1 ∧
      if w.toNat / 2 ^ 26 = 0 then
        if w.toNat % 2 ^ 6 ∈ [32, 34, 36, 37, 42] then t.trace = s.trace
        else OnlyReports (.unknownFunction (BitVec.ofNat 6 (w.toNat % 2 ^ 6))) s t
      else
        if w.toNat / 2 ^ 26 ∈ [8, 35, 43] then t.trace = s.trace
        else OnlyReports (.unknownOpcode (some (BitVec.ofNat 6 (w.toNat / 2 ^ 26)))) s t

/-! ## Decoding and encoding (30_encoding.md) -/

/-- R53, R54, R55. The classification by the top six bits and the fields of each form, each field a
slice `(w / 2^lo) mod 2^width` (R7). -/
def Obligations.DecoderClassifiesByTheTopSixBits : Prop :=
  ∀ w : Word,
    (w.toNat / 2 ^ 26 = 0 →
      decodeForm w = .registerForm (BitVec.ofNat 5 (w.toNat / 2 ^ 21 % 2 ^ 5))
        (BitVec.ofNat 5 (w.toNat / 2 ^ 16 % 2 ^ 5)) (BitVec.ofNat 5 (w.toNat / 2 ^ 11 % 2 ^ 5))
        (BitVec.ofNat 6 (w.toNat % 2 ^ 6))) ∧
    (w.toNat / 2 ^ 26 ≠ 0 →
      decodeForm w = .immediateForm (BitVec.ofNat 6 (w.toNat / 2 ^ 26))
        (BitVec.ofNat 5 (w.toNat / 2 ^ 21 % 2 ^ 5)) (BitVec.ofNat 5 (w.toNat / 2 ^ 16 % 2 ^ 5))
        (BitVec.ofNat 16 (w.toNat % 2 ^ 16)))

/-- R57. Two words with opcode 0 that differ only in bits 10-6 decode to equal values and execute
identically. -/
def Obligations.ShiftAmountBitsAreIgnored : Prop :=
  ∀ w v : Word, w.toNat / 2 ^ 26 = 0 → w &&& 0xFFFFF83F = v &&& 0xFFFFF83F →
    decodeForm w = decodeForm v ∧ decode w = decode v ∧
    ∀ s, execute (decodeForm w) s = execute (decodeForm v) s

/-- R61. On words with a non-zero opcode decoding is injective; on the others it forgets exactly bits
10-6. -/
def Obligations.DecodingForgetsOnlyTheShiftAmount : Prop :=
  ∀ w v : Word, decodeForm w = decodeForm v ↔
    (w.toNat / 2 ^ 26 ≠ 0 ∧ w = v) ∨
    (w.toNat / 2 ^ 26 = 0 ∧ w &&& 0xFFFFF83F = v &&& 0xFFFFF83F)

/-- R62. The decoder's ports carry the decoded value: `is_imm` tells the form, and the form's fields
are the ports of the same names (the ports are the spec's decision D2, log 14). -/
def Obligations.PortsCarryTheDecodedForm : Prop :=
  ∀ w : Word, decodeForm w =
    if (decoderPorts w).isImm then
      .immediateForm (decoderPorts w).opcode (decoderPorts w).rs (decoderPorts w).rt
        (decoderPorts w).imm
    else
      .registerForm (decoderPorts w).rs (decoderPorts w).rt (decoderPorts w).rd
        (decoderPorts w).funct

/-- R71. Decoding the word of a well-formed instruction gives it back, every operand at every value. -/
def Obligations.DecodeOfEncodeIsTheInstruction : Prop :=
  ∀ i : Instr, wellFormed i = true → decode (encode i) = some i

/-- R51, R57, R61. Every word decodes, to a well-formed instruction whose encoding is the word itself,
with bits 10-6 cleared when the opcode is 0. That the encoder writes zero into those bits is the spec's
convention (R71; log 15). -/
def Obligations.EveryWordDecodesAndIsReencoded : Prop :=
  ∀ w : Word, ∃ i, decode w = some i ∧ wellFormed i = true ∧
    encode i = if w.toNat / 2 ^ 26 = 0 then w &&& 0xFFFFF83F else w

/-- R65. The table of masks and patterns selects, by lowest priority, the row of the decoded
instruction and of no other mnemonic. -/
def Obligations.TheOpcodeTableSelectsTheDecodedRow : Prop :=
  ∀ w : Word, ∃ i, decode w = some i ∧
    ∃ r ∈ opcodeTable, r.mnemonic = i.mnemonic ∧ r.selects w = true ∧
      ∀ q ∈ opcodeTable, q.selects w = true → q = r ∨ r.priority < q.priority

/-- A few words written out from the encodings of R65, one of each family, decode to what they stand
for (30 R71, 95 part 2.1). -/
def Obligations.WrittenOutWordsDecode : Prop :=
  decode 0b000000_00001_00010_00011_00000_100000 = some (.add 1 2 3) ∧
  decode 0b000000_00001_00010_00011_11111_100000 = some (.add 1 2 3) ∧
  decode 0b001000_00000_01000_1111111111111111 = some (.addi 0 8 65535) ∧
  decode 0b100011_00000_00100_0000000000000000 = some (.lw 0 4 0) ∧
  decode 0b101011_00000_00001_0000011111010000 = some (.sw 0 1 2000) ∧
  decode 0b000100_00001_00001_0000000000000010 = some (.beq 1 1 2) ∧
  decode 0b000000_00000_00000_00000_00000_000000 = some (.unknownFunction 0 0 0 0) ∧
  decode 0b001111_00000_00001_0001001000110100 = some (.unknownOpcode 15 0 1 0x1234)

/-! ## The step and the run (40_dispatch.md, 10_state.md) -/

/-- R88. A step runs the decoded instruction: when the program's word at the counter decodes to `i`,
the step is `exec i`; nothing is added around it (the counter's advance is in the meaning). -/
def Obligations.StepRunsTheDecodedInstruction : Prop :=
  ∀ (s : State) (w : Word) (i : Instr), s.program[s.pc]? = some w → decode w = some i →
    wellFormed i = true ∧ step s = exec i s

/-- R90. When the counter has reached the program length a step changes nothing (D24; that the model's
step then answers the same state is log 4). R90 speaks of the counter equal to the length: that a counter
past it counts as halted too is the model's choice (log 17). -/
def Obligations.HaltedBlockHoldsItsState : Prop :=
  ∀ s : State, s.program.length ≤ s.pc → step s = .next s

/-- R17. Every instruction advances the counter by one, whatever its outcome, and none reads it: with
another counter it leaves the same registers and the same memory. -/
def Obligations.EveryInstructionAdvancesTheCounterByOne : Prop :=
  ∀ (i : Instr) (s : State) (p : Nat), ∃ t t', exec i s = .next t ∧ t.pc = s.pc + 1 ∧
    exec i { s with pc := p } = .next t' ∧ t'.pc = p + 1 ∧ t'.regs = t.regs ∧ t'.mem = t.mem

/-- R80. What an instruction does to registers and memory depends on registers and memory alone, in
blocks of one memory size (R6, log 2): it does not see the program, the counter or the trace. -/
def Obligations.ExecutionSeesOnlyRegistersAndMemory : Prop :=
  ∀ (i : Instr) (s s' : State), s.regs = s'.regs → s.mem = s'.mem → s.memWords = s'.memWords →
    ∃ t t', exec i s = .next t ∧ exec i s' = .next t' ∧ t.regs = t'.regs ∧ t.mem = t'.mem

/-- R85. Every row changes at most one register or one memory word, a reporting row neither; every
other register and every other word keeps its value, and neither the program nor the size of the memory
(R20; log 2) is ever written. -/
def Obligations.AnInstructionWritesAtMostOneLocation : Prop :=
  ∀ (i : Instr) (s : State), ∃ t, exec i s = .next t ∧
    SameRegsExcept (destOf i) s t ∧ SameMemExcept (storeAddressOf i s) s t ∧
    (destOf i = none ∨ storeAddressOf i s = none) ∧
    (reportOf i ≠ none → destOf i = none ∧ storeAddressOf i s = none) ∧
    SameParameters s t

/-- R13. An instruction reads no register but its sources: in two states that agree on them and on the
memory and its size (log 2) it stores the same word to the same address, and its destination register
ends with the same value in both, or (a load out of bounds) is left alone in both. -/
def Obligations.InstructionsReadOnlyTheirSources : Prop :=
  ∀ (i : Instr) (s s' : State), (∀ r ∈ sourcesOf i, s.reg r = s'.reg r) →
    (∀ a, s.readMem a = s'.readMem a) → s.memWords = s'.memWords →
    storeAddressOf i s = storeAddressOf i s' ∧
    ∃ t t', exec i s = .next t ∧ exec i s' = .next t' ∧
      (∀ r, destOf i = some r →
        t.reg r = t'.reg r ∨ t.reg r = s.reg r ∧ t'.reg r = s'.reg r) ∧
      ∀ a, t.readMem a = t'.readMem a

/-- R86. Operands are read before the destination is written: a register added to itself in place is
doubled, a load through its own destination uses the old base, a store of its own base stores the base
(the spec's decision D16, log 10). -/
def Obligations.OperandsAreReadBeforeTheDestinationIsWritten : Prop :=
  ∀ (s : State) (r : RegNo) (imm : Imm) (a : Nat), a < s.memWords →
    (s.reg r).toInt + (imm.toNat : Int) = a →
    (∃ t, exec (.add r r r) s = .next t ∧ t.reg r = 2 * s.reg r) ∧
    (∃ t, exec (.lw r r imm) s = .next t ∧ t.reg r = s.readMem a) ∧
    (∃ t, exec (.sw r r imm) s = .next t ∧ t.readMem a = s.reg r ∧ t.reg r = s.reg r)

/-- R12. Register 0 is an ordinary register: a write to it stores, a later read returns what was
written, and from reset `ADDI $0,$0,#1` leaves 1 in it. -/
def Obligations.RegisterZeroIsOrdinary : Prop :=
  State.reset.reg 0 = 0 ∧
  (∀ (s : State) (rs rt : RegNo), ∃ t u, exec (.add rs rt 0) s = .next t ∧
    t.reg 0 = s.reg rs + s.reg rt ∧ exec (.or 0 0 1) t = .next u ∧
    u.reg 1 = s.reg rs + s.reg rt ∧ u.reg 0 = t.reg 0) ∧
  ∃ t, step (State.load [0x20000001]) = .next t ∧ t.reg 0 = 1

/-- R43, R89, R91. Over any run from any state the program and the memory size stand, the `k`-th step
executes the word at index `pc + k`, and the block is halted exactly when the words have run out: after `N - pc` steps. -/
def Obligations.RunsExecuteInOrderAndHaltAfterTheLastWord : Prop :=
  ∀ (s : State) (k : Nat), s.pc + k ≤ s.program.length →
    ∃ t, run k s = .next t ∧ SameParameters s t ∧ t.pc = s.pc + k ∧
      t.fetch = s.program[s.pc + k]? ∧ (t.halted = true ↔ s.pc + k = s.program.length)

/-- The invariant of the block is kept by every step (a halted block's too: log 4): the memory is
in canonical form (the model's own, log 1) and lists nothing outside the data space (R31; its size is log 2), the counter does not pass the
program's end (R18), and the trace holds exactly one entry, in order, for each executed word that reports
(R25, R131; the entry's form is D7, log 5; the codes of BEQ and BNE are D9, log 8). -/
def Obligations.EveryStepKeepsTheInvariant : Prop :=
  ∀ s : State, BlockInv s → ∃ t, step s = .next t ∧ BlockInv t

/-- The invariant holds after reset, whatever program the host loads and however large the memory is
built (R26, R6; the program field is log 3, the memory size log 2). The canonical form it includes is the
model's own (log 1), the empty trace is D20 (log 5). -/
def Obligations.ResetMeetsTheInvariant : Prop :=
  BlockInv State.reset ∧ ∀ (p : List Word) (n : Nat), BlockInv (State.load p n)

/-! ## Reset and the host boundary (70_reset_and_hazards.md, 10_state.md) -/

/-- R15, R20, R26, R160. After reset every register, register 0 included, and every memory word reads
0, the counter is 0 and the trace is empty (the trace is D20, log 5), whatever program is loaded and
however large the memory is built; its size is the default 1024 where none is given (R6, D15; held in the
state, log 2). The last clause says that the reset state itself holds the empty program, which is the
model's choice: the spec does not reset the program (log 3). -/
def Obligations.ResetClearsEverything : Prop :=
  (∀ (p : List Word) (n : Nat),
    (∀ r, (State.load p n).reg r = 0) ∧ (∀ a, (State.load p n).readMem a = 0) ∧
    (State.load p n).pc = 0 ∧ (State.load p n).trace = [] ∧ (State.load p n).program = p ∧
    (State.load p n).memWords = n) ∧
  (∀ p : List Word, (State.load p).memWords = 1024) ∧ State.load [] = State.reset

/-- R167. The output is 32 pairs in index order, each the register's number and its signed value (the
text in base 10 is the host's, log 13). -/
def Obligations.OutputListsTheSignedRegisters : Prop :=
  ∀ s : State, s.output.length = 32 ∧
    ∀ r : RegNo, s.output[r.toNat]? = some (r.toNat, (s.reg r).toInt)

/-- R164. A literal is positional in base 16, most significant digit first, truncated to 32 bits (D18,
log 13). -/
def Obligations.LiteralsArePositionalAndTruncated : Prop :=
  ∀ (first : Fin 16) (rest : List (Fin 16)),
    (literalWord first rest).toNat =
      Nat.ofDigits 16 ((first :: rest).map Fin.val).reverse % 2 ^ 32

/-- R163, R165. Token `k` becomes `P[k]`, and one malformed token aborts the whole run (D19, log 13),
whatever the size of the memory (R6, log 2). -/
def Obligations.TokensBuildTheProgramOrAbort : Prop :=
  ∀ (ts : List Token) (n : Nat),
    (boot ts n = none ↔ .malformed ∈ ts) ∧
    ∀ s, boot ts n = some s → s.program.length = ts.length ∧ s.pc = 0 ∧ s.memWords = n ∧
      ∀ (k : Nat) (first : Fin 16) (rest : List (Fin 16)),
        ts[k]? = some (.literal first rest) → s.program[k]? = some (literalWord first rest)
end

