-- ==== Sys2Proof/Laws/Decode.lean ====
section
/-! SUPPORT. What each field extraction reads from an encoded word, and the decoder case by case. -/

namespace Sys2Proof

open Sys2Proof.Machine

section RType
variable (rs rt rd : RegNo) (funct : Code)

@[simp] theorem opcodeField_encodeR : opcodeField (encodeR rs rt rd funct) = 0 := by
  ext i hi; interval_cases i <;> simp [opcodeField, encodeR]

@[simp] theorem rsField_encodeR : rsField (encodeR rs rt rd funct) = rs := by
  ext i hi; interval_cases i <;> simp [rsField, encodeR]

@[simp] theorem rtField_encodeR : rtField (encodeR rs rt rd funct) = rt := by
  ext i hi; interval_cases i <;> simp [rtField, encodeR]

@[simp] theorem rdField_encodeR : rdField (encodeR rs rt rd funct) = rd := by
  ext i hi; interval_cases i <;> simp [rdField, encodeR]

@[simp] theorem functField_encodeR : functField (encodeR rs rt rd funct) = funct := by
  ext i hi; interval_cases i <;> simp [functField, encodeR]

/-- The bits an R-type row is selected by (R65). -/
theorem encodeR_and_mask : encodeR rs rt rd funct &&& 0xFC00003F#32 = funct.setWidth 32 := by
  ext i hi; interval_cases i <;> simp [encodeR]

theorem encodeR_and_opcodeMask : encodeR rs rt rd funct &&& 0xFC000000#32 = 0 := by
  ext i hi; interval_cases i <;> simp [encodeR]

end RType

section IType
variable (opcode : Code) (rs rt : RegNo) (imm : Imm)

@[simp] theorem opcodeField_encodeI : opcodeField (encodeI opcode rs rt imm) = opcode := by
  ext i hi; interval_cases i <;> simp [opcodeField, encodeI]

@[simp] theorem rsField_encodeI : rsField (encodeI opcode rs rt imm) = rs := by
  ext i hi; interval_cases i <;> simp [rsField, encodeI]

@[simp] theorem rtField_encodeI : rtField (encodeI opcode rs rt imm) = rt := by
  ext i hi; interval_cases i <;> simp [rtField, encodeI]

@[simp] theorem immField_encodeI : immField (encodeI opcode rs rt imm) = imm := by
  ext i hi; interval_cases i <;> simp [immField, encodeI]

/-- The bits an I-type row is selected by (R65). -/
theorem encodeI_and_mask :
    encodeI opcode rs rt imm &&& 0xFC000000#32 = opcode.setWidth 32 <<< 26 := by
  ext i hi; interval_cases i <;> simp [encodeI]

end IType

/-! The decoder, by the two classes of R53. -/

section Cases
variable {w : Word}

theorem decodeForm_of_opcode_zero (h : opcodeField w = 0) :
    decodeForm w = .registerForm (rsField w) (rtField w) (rdField w) (functField w) := by
  unfold decodeForm; rw [if_pos h]

theorem decodeForm_of_opcode_ne_zero (h : opcodeField w ≠ 0) :
    decodeForm w = .immediateForm (opcodeField w) (rsField w) (rtField w) (immField w) := by
  unfold decodeForm; rw [if_neg h]

theorem decode_of_opcode_zero (h : opcodeField w = 0) :
    decode w = some (registerRow (rsField w) (rtField w) (rdField w) (functField w)) := by
  simp [decode, decodeForm_of_opcode_zero h, Decoded.row]

theorem decode_of_opcode_ne_zero (h : opcodeField w ≠ 0) :
    decode w = some (immediateRow (opcodeField w) (rsField w) (rtField w) (immField w)) := by
  simp [decode, decodeForm_of_opcode_ne_zero h, Decoded.row]

end Cases

/-- The mask of R65 keeps the opcode alone. -/
theorem and_opcodeMask (w : Word) : w &&& 0xFC000000#32 = (opcodeField w).setWidth 32 <<< 26 := by
  ext i hi; interval_cases i <;> simp [opcodeField]

/-- The mask of R65 keeps the opcode and the function code. -/
theorem and_functMask (w : Word) :
    w &&& 0xFC00003F#32 =
      (opcodeField w).setWidth 32 <<< 26 ||| (functField w).setWidth 32 := by
  ext i hi; interval_cases i <;> simp [opcodeField, functField]

theorem registerRow_wellFormed (rs rt rd : RegNo) (funct : Code) :
    wellFormed (registerRow rs rt rd funct) = true := by
  unfold registerRow
  repeat' split
  all_goals simp_all [wellFormed, namedFunctions]

theorem immediateRow_wellFormed {opcode : Code} (h : opcode ≠ 0) (rs rt : RegNo) (imm : Imm) :
    wellFormed (immediateRow opcode rs rt imm) = true := by
  unfold immediateRow
  repeat' split
  all_goals simp_all [wellFormed, namedOpcodes]

end Sys2Proof
end

