-- ==== Sys2Proof/Laws/Memory.lean ====
section
/-! SUPPORT. The laws of the data memory: what a read sees after an update, and that every operation
keeps the canonical form. -/

namespace Sys2Proof.Machine

section Reads
variable (m : Memory) (a b : Nat) (v : Word)

@[simp] theorem Memory.read_nil : Memory.read [] a = Config.resetWord := rfl

theorem Memory.read_cons (c : Nat × Word) :
    Memory.read (c :: m) a = if c.1 = a then c.2 else m.read a := rfl

theorem Memory.read_eq_reset_of_unlisted (h : ∀ c ∈ m, c.1 ≠ a) : m.read a = Config.resetWord := by
  induction m with
  | nil => rfl
  | cons c m ih =>
    rw [Memory.read_cons, if_neg (h c (by simp)), ih fun d hd => h d (by simp [hd])]

theorem Memory.read_unlist_same : (m.unlist a).read a = Config.resetWord := by
  apply Memory.read_eq_reset_of_unlisted
  simp [Memory.unlist]

theorem Memory.read_unlist_other (h : b ≠ a) : (m.unlist a).read b = m.read b := by
  induction m with
  | nil => rfl
  | cons c m ih =>
    unfold Memory.unlist at ih ⊢
    by_cases hc : c.1 = a
    · have hcb : c.1 ≠ b := fun e => h (e.symm.trans hc)
      simpa [List.filter_cons, hc, Memory.read_cons, hcb, Ne.symm h] using ih
    · simp [hc, Memory.read_cons, ih]

theorem Memory.read_list_same (h : ∀ c ∈ m, c.1 ≠ a) : (Memory.list a v m).read a = v := by
  induction m with
  | nil => simp [Memory.list, Memory.read_cons]
  | cons c m ih =>
    have hc : c.1 ≠ a := h c (by simp)
    unfold Memory.list
    split
    · simp [Memory.read_cons]
    · rw [Memory.read_cons, if_neg hc, ih fun d hd => h d (by simp [hd])]

theorem Memory.read_list_other (h : b ≠ a) : (Memory.list a v m).read b = m.read b := by
  induction m with
  | nil => simp [Memory.list, Memory.read_cons, Ne.symm h]
  | cons c m ih =>
    unfold Memory.list
    split
    · simp [Memory.read_cons, Ne.symm h]
    · simp only [Memory.read_cons, ih]

/-- A read after a write to the same address gives the value written (R38). -/
@[simp] theorem Memory.read_write_same : (m.write a v).read a = v := by
  unfold Memory.write
  split
  · rename_i hv; rw [Memory.read_unlist_same, hv]
  · exact Memory.read_list_same _ _ _ (by simp [Memory.unlist])

/-- A write leaves every other address alone (R38). -/
theorem Memory.read_write_other (h : b ≠ a) : (m.write a v).read b = m.read b := by
  unfold Memory.write
  split
  · exact Memory.read_unlist_other _ _ _ h
  · rw [Memory.read_list_other _ _ _ _ h, Memory.read_unlist_other _ _ _ h]

theorem Memory.read_write : (m.write a v).read b = if b = a then v else m.read b := by
  by_cases h : b = a
  · subst h; simp
  · simp [h, Memory.read_write_other m a b v h]

end Reads

section Form
variable {m : Memory} {a : Nat} {v : Word}

theorem Memory.wf_nil : Memory.wf [] := by simp [Memory.wf]

theorem Memory.wf_unlist (h : m.wf) : (m.unlist a).wf :=
  ⟨h.1.filter _, fun c hc => h.2 c (List.mem_of_mem_filter hc)⟩

theorem Memory.mem_list {c : Nat × Word} : c ∈ Memory.list a v m ↔ c = (a, v) ∨ c ∈ m := by
  induction m with
  | nil => simp [Memory.list]
  | cons d m ih =>
    unfold Memory.list
    split
    · simp
    · simp [ih]; tauto

theorem Memory.wf_list (h : m.wf) (hfree : ∀ c ∈ m, c.1 ≠ a)
    (hv : v ≠ Config.resetWord) : (Memory.list a v m).wf := by
  refine ⟨?_, fun c hc => ?_⟩
  · obtain ⟨hp, -⟩ := h
    induction m with
    | nil => simp [Memory.list]
    | cons d m ih =>
      obtain ⟨hd, hm⟩ := List.pairwise_cons.1 hp
      unfold Memory.list
      split
      · rename_i hlt
        refine List.pairwise_cons.2 ⟨fun c hc => ?_, hp⟩
        rcases List.mem_cons.1 hc with rfl | hc
        · exact hlt
        · exact Nat.lt_trans hlt (hd c hc)
      · rename_i hnlt
        have hne := hfree d (by simp)
        refine List.pairwise_cons.2 ⟨fun c hc => ?_, ih (fun c hc => hfree c (by simp [hc])) hm⟩
        rcases Memory.mem_list.1 hc with rfl | hc
        · simp only at hne hnlt ⊢; omega
        · exact hd c hc
  · rcases Memory.mem_list.1 hc with rfl | hc
    · exact hv
    · exact h.2 c hc

/-- A write keeps the canonical form. -/
theorem Memory.wf_write (h : m.wf) : (m.write a v).wf := by
  unfold Memory.write
  split
  · exact Memory.wf_unlist h
  · rename_i hv
    exact Memory.wf_list (Memory.wf_unlist h) (by simp [Memory.unlist]) hv

/-- A write lists no address but its own and those that were listed. -/
theorem Memory.mem_write {c : Nat × Word} (h : c ∈ m.write a v) : c.1 = a ∨ c ∈ m := by
  unfold Memory.write at h
  split at h
  · exact .inr (List.mem_of_mem_filter h)
  · rcases Memory.mem_list.1 h with rfl | h
    · exact .inl rfl
    · exact .inr (List.mem_of_mem_filter h)

end Form

end Sys2Proof.Machine
end

