-- ==== Sys2Proof/Laws/Operands.lean ====
section
/-! SUPPORT. The laws of the value readings and of the effective address. -/

namespace Sys2Proof.Machine

/-- `u32(wrap32(n)) = n mod 2^32`, which fixes `wrap32` (00_scope.md R8). -/
theorem u32_wrap32 (n : Int) : (u32 (wrap32 n) : Int) = n % 2 ^ 32 := by
  simp only [u32, wrap32, BitVec.toNat_ofInt]
  norm_num
  exact Int.emod_nonneg n (by norm_num)

/-- The wrapped sum of the signed readings is the sum of the patterns (R101, R106). -/
theorem wrap32_add (a b : Word) : wrap32 (s32 a + s32 b) = a + b := by
  simp [wrap32, s32, BitVec.ofInt_add]

/-- The wrapped difference of the signed readings is the difference of the patterns (R102, R106). -/
theorem wrap32_sub (a b : Word) : wrap32 (s32 a - s32 b) = a - b := by
  apply BitVec.eq_of_toInt_eq
  simp [wrap32, s32, BitVec.toInt_sub]

theorem lessThan_iff (a b : Word) : lessThan a b = true ↔ a.toInt < b.toInt := by
  exact decide_eq_true_iff

/-- Everything the effective address can do: an address exactly when it is in bounds, and then the
address itself. -/
theorem State.dataAddress_eq_some_iff (s : State) (rs : RegNo) (imm : Imm) (a : Nat) :
    s.dataAddress rs imm = some a ↔
      s.effectiveAddress rs imm = (a : Int) ∧ a < s.memWords := by
  unfold State.dataAddress
  simp only
  split
  · rename_i h
    simp only [Option.some.injEq]
    omega
  · rename_i h
    simp only [reduceCtorEq, false_iff]
    omega

theorem State.dataAddress_eq_none_iff (s : State) (rs : RegNo) (imm : Imm) :
    s.dataAddress rs imm = none ↔
      s.effectiveAddress rs imm < 0 ∨ (s.memWords : Int) ≤ s.effectiveAddress rs imm := by
  unfold State.dataAddress
  simp only
  split
  · rename_i h
    simp only [reduceCtorEq, false_iff]
    omega
  · rename_i h
    simp only [true_iff]
    omega

theorem State.dataAddress_lt {s : State} {rs : RegNo} {imm : Imm} {a : Nat}
    (h : s.dataAddress rs imm = some a) : a < s.memWords :=
  ((State.dataAddress_eq_some_iff s rs imm a).1 h).2

end Sys2Proof.Machine
end

