-- ==== Sys2Proof/Laws/State.lean ====
section
/-! SUPPORT. The small laws of the state: one per field and per update, and the laws of register and
memory access through an update. -/

namespace Sys2Proof.Machine

section
variable (s : State) (r q : RegNo) (v : Word) (a b : Nat) (o : ExecOutcome)

/-! `setReg` -/

@[simp] theorem State.mem_setReg : (s.setReg r v).mem = s.mem := rfl
@[simp] theorem State.memWords_setReg : (s.setReg r v).memWords = s.memWords := rfl
@[simp] theorem State.pc_setReg : (s.setReg r v).pc = s.pc := rfl
@[simp] theorem State.program_setReg : (s.setReg r v).program = s.program := rfl
@[simp] theorem State.trace_setReg : (s.setReg r v).trace = s.trace := rfl
@[simp] theorem State.readMem_setReg : (s.setReg r v).readMem a = s.readMem a := rfl

@[simp] theorem State.reg_setReg_same : (s.setReg r v).reg r = v := by
  simp [State.reg, State.setReg]

theorem State.reg_setReg_other (h : q ≠ r) : (s.setReg r v).reg q = s.reg q := by
  have hne : r.toNat ≠ q.toNat := fun e => h (BitVec.eq_of_toNat_eq e.symm)
  simp [State.reg, State.setReg, hne]

theorem State.reg_setReg : (s.setReg r v).reg q = if q = r then v else s.reg q := by
  by_cases h : q = r
  · subst h; simp
  · simp [h, State.reg_setReg_other s r q v h]

/-! `writeMem` -/

@[simp] theorem State.regs_writeMem : (s.writeMem a v).regs = s.regs := rfl
@[simp] theorem State.mem_writeMem : (s.writeMem a v).mem = s.mem.write a v := rfl
@[simp] theorem State.memWords_writeMem : (s.writeMem a v).memWords = s.memWords := rfl
@[simp] theorem State.pc_writeMem : (s.writeMem a v).pc = s.pc := rfl
@[simp] theorem State.program_writeMem : (s.writeMem a v).program = s.program := rfl
@[simp] theorem State.trace_writeMem : (s.writeMem a v).trace = s.trace := rfl
@[simp] theorem State.reg_writeMem : (s.writeMem a v).reg r = s.reg r := rfl

/-! `finish` -/

@[simp] theorem State.regs_finish : (s.finish o).regs = s.regs := rfl
@[simp] theorem State.mem_finish : (s.finish o).mem = s.mem := rfl
@[simp] theorem State.memWords_finish : (s.finish o).memWords = s.memWords := rfl
@[simp] theorem State.pc_finish : (s.finish o).pc = s.pc + 1 := rfl
@[simp] theorem State.program_finish : (s.finish o).program = s.program := rfl
@[simp] theorem State.trace_finish : (s.finish o).trace = s.trace ++ o.entries s.pc := rfl
@[simp] theorem State.reg_finish : (s.finish o).reg r = s.reg r := rfl
@[simp] theorem State.readMem_finish : (s.finish o).readMem a = s.readMem a := rfl

@[simp] theorem ExecOutcome.entries_executed (pc : Nat) : ExecOutcome.executed.entries pc = [] := rfl
@[simp] theorem ExecOutcome.entries_report (p : Report) (pc : Nat) :
    (ExecOutcome.report p).entries pc = [(pc, p)] := rfl

/-! `placeWord` and `load` -/

@[simp] theorem State.regs_placeWord : (s.placeWord v).regs = s.regs := rfl
@[simp] theorem State.mem_placeWord : (s.placeWord v).mem = s.mem := rfl
@[simp] theorem State.memWords_placeWord : (s.placeWord v).memWords = s.memWords := rfl
@[simp] theorem State.pc_placeWord : (s.placeWord v).pc = s.pc := rfl
@[simp] theorem State.trace_placeWord : (s.placeWord v).trace = s.trace := rfl

/-- The placed word is the one the next fetch reads. -/
@[simp] theorem State.fetch_placeWord : (s.placeWord v).fetch = some v := by
  simp [State.fetch, State.placeWord]

variable (p : List Word) (n : Nat)

@[simp] theorem State.regs_load : (State.load p n).regs = State.reset.regs := rfl
@[simp] theorem State.mem_load : (State.load p n).mem = [] := rfl
@[simp] theorem State.memWords_load : (State.load p n).memWords = n := rfl
@[simp] theorem State.pc_load : (State.load p n).pc = 0 := rfl
@[simp] theorem State.program_load : (State.load p n).program = p := rfl
@[simp] theorem State.trace_load : (State.load p n).trace = [] := rfl

end

/-- Registers that read alike are the same register file. -/
theorem State.regs_eq_of_reg_eq {s t : State} (h : ∀ r, s.reg r = t.reg r) : s.regs = t.regs := by
  apply Vector.ext
  intro i hi
  have := h (BitVec.ofNat 5 i)
  have e : i % 32 = i := Nat.mod_eq_of_lt hi
  simpa [State.reg, e] using this

/-- The fetch answers exactly while the block is not halted. -/
theorem State.fetch_eq_none_iff (s : State) : s.fetch = none ↔ s.halted = true := by
  simp [State.fetch, State.halted]

end Sys2Proof.Machine
end

