-- ==== Sys2Proof/Laws/Exec.lean ====
section
/-! SUPPORT. What the meanings answer, once per instruction, and once for all of them: the four things
an instruction can do. -/

namespace Sys2Proof.Machine

section Meanings
variable (s : State) (rs rt rd : RegNo) (imm : Imm)

theorem exec_add : exec (.add rs rt rd) s =
    .next ((s.setReg rd (wrap32 (s32 (s.reg rs) + s32 (s.reg rt)))).finish .executed) := rfl

theorem exec_sub : exec (.sub rs rt rd) s =
    .next ((s.setReg rd (wrap32 (s32 (s.reg rs) - s32 (s.reg rt)))).finish .executed) := rfl

theorem exec_and : exec (.and rs rt rd) s =
    .next ((s.setReg rd (s.reg rs &&& s.reg rt)).finish .executed) := rfl

theorem exec_or : exec (.or rs rt rd) s =
    .next ((s.setReg rd (s.reg rs ||| s.reg rt)).finish .executed) := rfl

theorem exec_slt : exec (.slt rs rt rd) s =
    .next ((s.setReg rd (truthWord (lessThan (s.reg rs) (s.reg rt)))).finish .executed) := rfl

theorem exec_addi : exec (.addi rs rt imm) s =
    .next ((s.setReg rt (wrap32 (s32 (s.reg rs) + zext32 imm))).finish .executed) := rfl

theorem exec_lw_in_bounds {a : Nat} (h : s.dataAddress rs imm = some a) :
    exec (.lw rs rt imm) s = .next ((s.setReg rt (s.readMem a)).finish .executed) := by
  simp [exec, execLw, h]

theorem exec_lw_out_of_bounds (h : s.dataAddress rs imm = none) :
    exec (.lw rs rt imm) s = .next (s.finish .executed) := by
  simp [exec, execLw, h]

theorem exec_sw_in_bounds {a : Nat} (h : s.dataAddress rs imm = some a) :
    exec (.sw rs rt imm) s = .next ((s.writeMem a (s.reg rt)).finish .executed) := by
  simp [exec, execSw, h]

theorem exec_sw_out_of_bounds (h : s.dataAddress rs imm = none) :
    exec (.sw rs rt imm) s = .next (s.finish .executed) := by
  simp [exec, execSw, h]

end Meanings

/-- The next state of a step that wrote register `rd`, stored a word, did nothing, or reported. -/
theorem exec_cases {i : Instr} {s t : State} (h : exec i s = .next t) :
    (∃ rd v, destOf i = some rd ∧ storeAddressOf i s = none ∧ reportOf i = none ∧
        t = (s.setReg rd v).finish .executed) ∨
    (∃ a v, destOf i = none ∧ storeAddressOf i s = some a ∧ reportOf i = none ∧
        t = (s.writeMem a v).finish .executed) ∨
    (storeAddressOf i s = none ∧ reportOf i = none ∧ t = s.finish .executed) ∨
    (∃ r, destOf i = none ∧ storeAddressOf i s = none ∧ reportOf i = some r ∧
        t = s.reportStep r) := by
  cases i with
  | add rs rt rd => cases h; exact .inl ⟨rd, _, rfl, rfl, rfl, rfl⟩
  | sub rs rt rd => cases h; exact .inl ⟨rd, _, rfl, rfl, rfl, rfl⟩
  | and rs rt rd => cases h; exact .inl ⟨rd, _, rfl, rfl, rfl, rfl⟩
  | or rs rt rd => cases h; exact .inl ⟨rd, _, rfl, rfl, rfl, rfl⟩
  | slt rs rt rd => cases h; exact .inl ⟨rd, _, rfl, rfl, rfl, rfl⟩
  | addi rs rt imm => cases h; exact .inl ⟨rt, _, rfl, rfl, rfl, rfl⟩
  | lw rs rt imm =>
    cases ha : s.dataAddress rs imm with
    | none =>
      rw [exec_lw_out_of_bounds s rs rt imm ha] at h; cases h
      exact .inr (.inr (.inl ⟨rfl, rfl, rfl⟩))
    | some a =>
      rw [exec_lw_in_bounds s rs rt imm ha] at h; cases h
      exact .inl ⟨rt, _, rfl, rfl, rfl, rfl⟩
  | sw rs rt imm =>
    cases ha : s.dataAddress rs imm with
    | none =>
      rw [exec_sw_out_of_bounds s rs rt imm ha] at h; cases h
      exact .inr (.inr (.inl ⟨ha, rfl, rfl⟩))
    | some a =>
      rw [exec_sw_in_bounds s rs rt imm ha] at h; cases h
      exact .inr (.inl ⟨a, _, rfl, ha, rfl, rfl⟩)
  | beq rs rt imm => cases h; exact .inr (.inr (.inr ⟨_, rfl, rfl, rfl, rfl⟩))
  | bne rs rt imm => cases h; exact .inr (.inr (.inr ⟨_, rfl, rfl, rfl, rfl⟩))
  | unknownFunction rs rt rd funct => cases h; exact .inr (.inr (.inr ⟨_, rfl, rfl, rfl, rfl⟩))
  | unknownOpcode op rs rt imm => cases h; exact .inr (.inr (.inr ⟨_, rfl, rfl, rfl, rfl⟩))

/-- No instruction writes the program or the size of the memory. -/
theorem exec_sameParameters {i : Instr} {s t : State} (h : exec i s = .next t) :
    SameParameters s t := by
  rcases exec_cases h with ⟨_, _, -, -, -, rfl⟩ | ⟨_, _, -, -, -, rfl⟩ | ⟨-, -, rfl⟩ |
    ⟨_, -, -, -, rfl⟩ <;> exact ⟨rfl, rfl⟩

/-- A store goes to an address of the data space. -/
theorem storeAddressOf_lt {i : Instr} {s : State} {a : Nat} (h : storeAddressOf i s = some a) :
    a < s.memWords := by
  cases i <;> first | exact State.dataAddress_lt h | cases h

end Sys2Proof.Machine
end

