-- ==== Sys2Proof/Laws/PerInstr.lean ====
section
/-! SUPPORT. A statement for every instruction, one lemma per constructor: the word of an instruction
agrees with its row of the opcode table on the bits of the row's mask (30_encoding.md R65, R71). -/

namespace Sys2Proof.Laws

open Sys2Proof Sys2Proof.Machine

/-- The row of that mnemonic is in the table and selects the instruction's word. -/
def Encoded.Statement (i : Instr) : Prop :=
  ∃ r ∈ opcodeTable, r.mnemonic = i.mnemonic ∧ r.selects (encode i) = true

section
variable (rs rt rd : RegNo) (imm : Imm)

theorem Encoded.add : Encoded.Statement (.add rs rt rd) :=
  ⟨⟨"ADD", 0xFC00003F, 0x00000020, 0⟩, by decide, rfl, by
    simp [OpcodeRow.selects, encode, encodeR_and_mask]⟩

theorem Encoded.sub : Encoded.Statement (.sub rs rt rd) :=
  ⟨⟨"SUB", 0xFC00003F, 0x00000022, 0⟩, by decide, rfl, by
    simp [OpcodeRow.selects, encode, encodeR_and_mask]⟩

theorem Encoded.and : Encoded.Statement (.and rs rt rd) :=
  ⟨⟨"AND", 0xFC00003F, 0x00000024, 0⟩, by decide, rfl, by
    simp [OpcodeRow.selects, encode, encodeR_and_mask]⟩

theorem Encoded.or : Encoded.Statement (.or rs rt rd) :=
  ⟨⟨"OR", 0xFC00003F, 0x00000025, 0⟩, by decide, rfl, by
    simp [OpcodeRow.selects, encode, encodeR_and_mask]⟩

theorem Encoded.slt : Encoded.Statement (.slt rs rt rd) :=
  ⟨⟨"SLT", 0xFC00003F, 0x0000002A, 0⟩, by decide, rfl, by
    simp [OpcodeRow.selects, encode, encodeR_and_mask]⟩

theorem Encoded.beq : Encoded.Statement (.beq rs rt imm) :=
  ⟨⟨"BEQ", 0xFC000000, 0x10000000, 0⟩, by decide, rfl, by
    simp [OpcodeRow.selects, encode, encodeI_and_mask]⟩

theorem Encoded.bne : Encoded.Statement (.bne rs rt imm) :=
  ⟨⟨"BNE", 0xFC000000, 0x14000000, 0⟩, by decide, rfl, by
    simp [OpcodeRow.selects, encode, encodeI_and_mask]⟩

theorem Encoded.addi : Encoded.Statement (.addi rs rt imm) :=
  ⟨⟨"ADDI", 0xFC000000, 0x20000000, 0⟩, by decide, rfl, by
    simp [OpcodeRow.selects, encode, encodeI_and_mask]⟩

theorem Encoded.lw : Encoded.Statement (.lw rs rt imm) :=
  ⟨⟨"LW", 0xFC000000, 0x8C000000, 0⟩, by decide, rfl, by
    simp [OpcodeRow.selects, encode, encodeI_and_mask]⟩

theorem Encoded.sw : Encoded.Statement (.sw rs rt imm) :=
  ⟨⟨"SW", 0xFC000000, 0xAC000000, 0⟩, by decide, rfl, by
    simp [OpcodeRow.selects, encode, encodeI_and_mask]⟩

theorem Encoded.unknownFunction (funct : Code) :
    Encoded.Statement (.unknownFunction rs rt rd funct) :=
  ⟨⟨"UNKNOWN_FUNCTION", 0xFC000000, 0x00000000, 1⟩, by decide, rfl, by
    simp [OpcodeRow.selects, encode, encodeR_and_opcodeMask]⟩

theorem Encoded.unknownOpcode (opcode : Code) :
    Encoded.Statement (.unknownOpcode opcode rs rt imm) :=
  ⟨⟨"UNKNOWN_OPCODE", 0x00000000, 0x00000000, 2⟩, by decide, rfl, by
    simp [OpcodeRow.selects]⟩

end

end Sys2Proof.Laws
end

