-- ==== Sys2Proof/Laws/Step.lean ====
section
/-! SUPPORT. The step by the two cases of its fetch, and the trace of a program word by word. -/

namespace Sys2Proof.Machine

theorem step_of_fetch_none {s : State} (h : s.fetch = none) : step s = haltedStep s := by
  simp [step, h]

theorem execute_of_row {d : Decoded} {i : Instr} (h : d.row = some i) (s : State) :
    execute d s = exec i s := by
  simp [execute, h]

/-- No step writes the program or the size of the memory. -/
theorem step_sameParameters {s t : State} (h : step s = .next t) : SameParameters s t := by
  cases hf : s.fetch with
  | none => rw [step_of_fetch_none hf] at h; cases h; exact ⟨rfl, rfl⟩
  | some w =>
    simp only [step, hf, execute] at h
    split at h
    · exact exec_sameParameters h
    · cases h; exact ⟨rfl, rfl⟩

/-- The run of the claims is the host's. -/
theorem core_run_eq_run (k : Nat) (s : State) : core.run k s = run k s := by
  induction k generalizing s with
  | zero => rfl
  | succ k ih =>
    cases hs : step s with
    | next t =>
      have hc : core.step s = .next t := hs
      simp only [Host.Core.run, hc, run, hs]
      exact ih t
    | fault r => cases r
    | refused r =>
      have hc : core.step s = .refused r := hs
      simp only [Host.Core.run, hc, run, hs]
      rfl

@[simp] theorem run_zero (s : State) : run 0 s = .next s := rfl

theorem run_succ_of_step {s t : State} (k : Nat) (h : step s = .next t) : run (k + 1) s = run k t := by
  simp [run, h]

/-- A run of `k + 1` steps is a run of `k` steps and one more. -/
theorem run_succ_last {s t : State} {k : Nat} (h : run k s = .next t) : run (k + 1) s = step t := by
  induction k generalizing s with
  | zero =>
    cases h
    simp only [run]
    split <;> simp [*]
  | succ k ih =>
    cases hs : step s with
    | next u =>
      rw [run_succ_of_step k hs] at h
      rw [run_succ_of_step (k + 1) hs, ih h]
    | fault r => cases r
    | refused r => simp [run, hs] at h

/-- A run that answers a next state answered one at every earlier step. -/
theorem run_prefix {s u : State} {k : Nat} (h : run (k + 1) s = .next u) :
    ∃ t, run k s = .next t ∧ step t = .next u := by
  induction k generalizing s with
  | zero =>
    cases hs : step s with
    | next t => rw [run_succ_of_step 0 hs] at h; cases h; exact ⟨s, rfl, hs⟩
    | fault r => cases r
    | refused r => simp [run, hs] at h
  | succ k ih =>
    cases hs : step s with
    | next t =>
      rw [run_succ_of_step (k + 1) hs] at h
      obtain ⟨v, hv, hu⟩ := ih h
      exact ⟨v, by rw [run_succ_of_step k hs, hv], hu⟩
    | fault r => cases r
    | refused r => simp [run, hs] at h

/-- No run writes the program or the size of the memory. -/
theorem run_sameParameters {s t : State} {k : Nat} (h : run k s = .next t) : SameParameters s t := by
  induction k generalizing t with
  | zero => cases h; exact ⟨rfl, rfl⟩
  | succ k ih =>
    obtain ⟨u, hu, ht⟩ := run_prefix h
    obtain ⟨hp, hw⟩ := ih hu
    obtain ⟨hp', hw'⟩ := step_sameParameters ht
    exact ⟨hp'.trans hp, hw'.trans hw⟩

theorem tracedFrom_append (k : Nat) (ws vs : List Word) :
    tracedFrom k (ws ++ vs) = tracedFrom k ws ++ tracedFrom (k + ws.length) vs := by
  induction ws generalizing k with
  | nil => simp [tracedFrom]
  | cons w ws ih =>
    simp only [List.cons_append, tracedFrom, ih, List.append_assoc, List.length_cons]
    rw [show k + 1 + ws.length = k + (ws.length + 1) by omega]

end Sys2Proof.Machine
end

