-- ==== Sys2Proof/Tests/Slice0.lean ====
section
/-! SUPPORT. The model's own tests. Expected values are from spec/95_test_vectors.md (the part is named
at each group) or from the rule named; each is about one step, one word or one operation. The last
group shows, for every obligation with a hypothesis, that something meets it. -/

namespace Sys2Proof.Tests

open Sys2Proof Sys2Proof.Machine

/-! ## Ill-formed terms are refused, their well-formed neighbours are not (30 R63, R64) -/

theorem test_wf_refuses_named_function : wellFormed (.unknownFunction 1 2 3 32) = false := by decide
theorem test_wf_refuses_slt_as_unknown : wellFormed (.unknownFunction 0 0 0 42) = false := by decide
theorem test_wf_accepts_unknown_function : wellFormed (.unknownFunction 1 2 3 33) = true := by decide
theorem test_wf_refuses_opcode_zero : wellFormed (.unknownOpcode 0 1 2 3) = false := by decide
theorem test_wf_refuses_named_opcode : wellFormed (.unknownOpcode 43 1 2 3) = false := by decide
theorem test_wf_accepts_unknown_opcode : wellFormed (.unknownOpcode 42 1 2 3) = true := by decide

/-! ## Decoding, a word of every constructor written out from 30 R65 (95 parts 2.1 to 2.5) -/

theorem test_decode_add : decode 0b000000_00001_00010_00011_00000_100000 = some (.add 1 2 3) := by decide
theorem test_decode_add_shamt : decode 0x00221FE0 = some (.add 1 2 3) := by decide
theorem test_decode_add_high : decode 0x03FFF820 = some (.add 31 31 31) := by decide
theorem test_decode_sub : decode 0b000000_00001_00010_00011_00000_100010 = some (.sub 1 2 3) := by decide
theorem test_decode_and : decode 0b000000_00001_00010_00011_00000_100100 = some (.and 1 2 3) := by decide
theorem test_decode_or : decode 0b000000_00001_00010_00011_00000_100101 = some (.or 1 2 3) := by decide
theorem test_decode_slt : decode 0b000000_00100_00001_00101_00000_101010 = some (.slt 4 1 5) := by decide
theorem test_decode_beq : decode 0b000100_00001_00001_0000000000000010 = some (.beq 1 1 2) := by decide
theorem test_decode_bne : decode 0b000101_00000_00001_0000000000000011 = some (.bne 0 1 3) := by decide
theorem test_decode_addi : decode 0b001000_00000_01000_1111111111111111 = some (.addi 0 8 65535) := by decide
theorem test_decode_lw : decode 0b100011_00001_00010_0000000000010111 = some (.lw 1 2 23) := by decide
theorem test_decode_sw : decode 0b101011_00000_00001_0000011111010000 = some (.sw 0 1 2000) := by decide
theorem test_decode_zero : decode 0 = some (.unknownFunction 0 0 0 0) := by decide
theorem test_decode_function_63 : decode 0x03FFFFFF = some (.unknownFunction 31 31 31 63) := by decide
theorem test_decode_opcode_1 : decode 0x04000000 = some (.unknownOpcode 1 0 0 0) := by decide
theorem test_decode_ones : decode 0xFFFFFFFF = some (.unknownOpcode 63 31 31 65535) := by decide
theorem test_decodeForm_jump : decodeForm 0x0FFFFFFF = .immediateForm 3 31 31 65535 := by decide
theorem test_ports : decoderPorts 0x2008FFFF = ⟨true, 8, 0, 8, 31, 63, 65535⟩ := by decide

/-! ## Encoding (30 R71, 95 part 3) -/

theorem test_encode_add : encode (.add 1 2 3) = 0x00221820 := by decide
theorem test_encode_addi : encode (.addi 0 8 65535) = 0x2008FFFF := by decide
theorem test_encode_sw : encode (.sw 2 1 1) = 0xAC410001 := by decide
theorem test_table_word : decodeTableWord 32 0x8C040000 = some (.lw 0 4 0) := by decide

/-! ## One step -/

/-- Reset with one program word, two register values and a memory. -/
def start (w : Word) (r : RegNo) (v : Word) (r' : RegNo) (v' : Word) (m : Memory) : State :=
  { ((State.load [w]).setReg r v).setReg r' v' with mem := m }

/-- The state after one step, if the step answers one. -/
def after (s : State) : Option State :=
  match step s with
  | .next t => some t
  | .fault _ => none
  | .refused _ => none

/-- 95 part 2.2, row `0x7FFFFFFF`, 1. -/
theorem test_add_wraps :
    (after (start 0x00221820 1 0x7FFFFFFF 2 1 [])).map (·.reg 3) = some 0x80000000 := by decide

/-- 95 part 2.2, aliasing: `ADD $1,$2,$0` writes register 0. -/
theorem test_add_register_zero :
    (after (start 0x00220020 1 5 2 10 [])).map (·.reg 0) = some 15 := by decide

/-- 95 part 2.2, row 0, `0x80000000`. -/
theorem test_sub_most_negative :
    (after (start 0x00221822 1 0 2 0x80000000 [])).map (·.reg 3) = some 0x80000000 := by decide

/-- 95 part 2.2, aliasing: `SUB $1,$2,$2` with 3 and 10 gives -7. -/
theorem test_sub_into_target :
    (after (start 0x00221022 1 3 2 10 [])).map (·.reg 2) = some 0xFFFFFFF9 := by decide

/-- 95 part 2.2, row `0x0F0F0F0F`, `0x00FF00FF`. -/
theorem test_and :
    (after (start 0x00221824 1 0x0F0F0F0F 2 0x00FF00FF [])).map (·.reg 3) = some 0x000F000F := by decide

/-- 95 part 2.2, the same row. -/
theorem test_or :
    (after (start 0x00221825 1 0x0F0F0F0F 2 0x00FF00FF [])).map (·.reg 3) = some 0x0FFF0FFF := by decide

/-- 95 part 2.2, row `0x80000000`, `0x7FFFFFFF`: a wrapped difference would say 0. -/
theorem test_slt_signed :
    (after (start 0x0022182A 1 0x80000000 2 0x7FFFFFFF [])).map (·.reg 3) = some 1 := by decide

/-- 95 part 2.2, aliasing: `SLT $1,$2,$1` with -3 and 4. -/
theorem test_slt_into_source :
    (after (start 0x0022082A 1 0xFFFFFFFD 2 4 [])).map (·.reg 1) = some 1 := by decide

/-- 95 S1, with `x[0]` = -65535: not sign-extended. -/
theorem test_addi_zero_extends :
    (after (start 0x2008FFFF 0 0xFFFF0001 1 0 [])).map (·.reg 8) = some 0 := by decide

/-- 95 part 2.3, row `0x7FFFFFFF`, `0xFFFF`. -/
theorem test_addi_wraps :
    (after (start 0x2022FFFF 1 0x7FFFFFFF 2 0 [])).map (·.reg 2) = some 0x8000FFFE := by decide

/-- 95 part 2.4, row -1, `0x0400`: the last word, from a negative base. -/
theorem test_lw_last_word :
    (after (start 0x8C220400 1 0xFFFFFFFF 2 77 [(1023, 55)])).map (·.reg 2) = some 55 := by decide

/-- 95 part 2.4, row -1, `0x0401`: out of bounds, the old value stays. -/
theorem test_lw_out_of_bounds :
    (after (start 0x8C220401 1 0xFFFFFFFF 2 77 [(1023, 55)])).map (·.reg 2) = some 77 := by decide

/-- 95 part 2.4, row 500, 23. -/
theorem test_sw_in_bounds :
    (after (start 0xAC220017 1 500 2 77 [(523, 55)])).map (·.mem) = some [(523, 77)] := by decide

/-- 95 part 2.4, row 0, 1024: skipped, and the step reports nothing. -/
theorem test_sw_out_of_bounds :
    (after (start 0xAC220400 1 0 2 77 [(0, 55)])).map (fun t => (t.mem, t.pc, t.trace)) =
      some ([(0, 55)], 1, []) := by decide

/-- A block of 2048 words (00 R6, `MEM_WORDS` an argument): 20 R33 puts 1024 in bounds. -/
theorem test_sw_larger_memory :
    (after { start 0xAC220400 1 0 2 77 [] with memWords := 2048 }).map (·.mem) =
      some [(1024, 77)] := by decide

/-- A block of 16 words: 20 R33 puts 16 out of bounds and 15 in bounds. -/
theorem test_lw_smaller_memory :
    (after { start 0x8C220010 1 0 2 77 [(15, 55)] with memWords := 16 }).map (·.reg 2) = some 77 ∧
    (after { start 0x8C22000F 1 0 2 77 [(15, 55)] with memWords := 16 }).map (·.reg 2) = some 55 := by
  decide

/-- 95 part 2.5, `BEQ $1,$1,#2` with equal operands does not branch. -/
theorem test_beq :
    (after (start 0x10210002 1 3 2 4 [(7, 6)])).map (fun t => (t.pc, t.trace)) =
      some (1, [(0, .unknownOpcode (some 4))]) := by decide

/-- 95 part 2.5, `BNE` on different operands. -/
theorem test_bne :
    (after (start 0x14220003 1 3 2 4 [])).map (fun t => (t.pc, t.trace)) =
      some (1, [(0, .unknownOpcode (some 5))]) := by decide

/-- 95 part 2.5, function code 38, which leaves `x[3]`. -/
theorem test_unknown_function :
    (after (start 0x00221826 1 3 3 9 [])).map (fun t => (t.reg 3, t.trace)) =
      some (9, [(0, .unknownFunction 38)]) := by decide

/-- 95 part 2.5, opcode 15. -/
theorem test_unknown_opcode :
    (after (start 0x3C011234 1 3 2 4 [])).map (fun t => (t.reg 1, t.trace)) =
      some (3, [(0, .unknownOpcode (some 15))]) := by decide

/-- 95 P7: the block is halted at reset with no program. -/
theorem test_reset_is_halted : State.reset.halted = true ∧ step State.reset = .next State.reset :=
  ⟨by decide, rfl⟩

/-- The placed word is what the next step runs. -/
theorem test_withFetchWord :
    (after (State.reset.withFetchWord 32 0x2008FFFF)).map (·.reg 8) = some 65535 := by decide

/-- A placed word beyond the program pads it, and keeps what is there. -/
theorem test_placeWord_keeps :
    ({ State.load [1, 2, 3] with pc := 1 }.placeWord 9).program = [1, 9, 3] ∧
    ({ State.load [] with pc := 2 }.placeWord 9).program = [0, 0, 9] := by decide

/-! ## Memory and the host boundary -/

theorem test_write_sorted : Memory.write [(3, 1), (9, 2)] 5 7 = [(3, 1), (5, 7), (9, 2)] := by decide
theorem test_write_zero_unlists : Memory.write [(3, 1), (9, 2)] 3 0 = [(9, 2)] := by decide
theorem test_write_replaces : Memory.write [(3, 1), (9, 2)] 9 8 = [(3, 1), (9, 8)] := by decide

/-- 70 R164: `20` is `0x00000020`, and a ninth digit is truncated away. -/
theorem test_literal :
    literalWord 2 [0] = 0x20 ∧ literalWord 1 [2, 0, 0, 8, 15, 15, 15, 15] = 0x2008FFFF := by decide

/-- 70 R167: `0xFFFFFFFB` is shown as -5. -/
theorem test_output : (State.reset.setReg 2 0xFFFFFFFB).output[2]? = some (2, -5) := by decide

/-! ## Witnesses: something meets the hypotheses of every obligation that has some -/

/-- LW's clauses at the four boundary addresses 0, 1023, 1024 and -1. -/
theorem witness_lw_bounds :
    ((start 0 1 0 2 0 []).reg 1).toInt + ((0 : Imm).toNat : Int) = (0 : Nat) ∧
    ((start 0 1 0 2 0 []).reg 1).toInt + ((1023 : Imm).toNat : Int) = (1023 : Nat) ∧
    ((start 0 1 0 2 0 []).memWords : Int) ≤ ((start 0 1 0 2 0 []).reg 1).toInt + ((1024 : Imm).toNat : Int) ∧
    ((start 0 1 0xFFFFFFFF 2 0 []).reg 1).toInt + ((0 : Imm).toNat : Int) < 0 := by decide

/-- A skipped access: R34's hypothesis holds at -1 and at 1024, and both instructions are in the list. -/
theorem witness_out_of_bounds :
    (((start 0 1 0xFFFFFFFF 2 0 []).reg 1).toInt + ((0 : Imm).toNat : Int) < 0 ∨
      ((start 0 1 0xFFFFFFFF 2 0 []).memWords : Int) ≤ ((start 0 1 0xFFFFFFFF 2 0 []).reg 1).toInt + ((0 : Imm).toNat : Int)) ∧
    (((start 0 1 1023 2 0 []).reg 1).toInt + ((1 : Imm).toNat : Int) < 0 ∨
      ((start 0 1 1023 2 0 []).memWords : Int) ≤ ((start 0 1 1023 2 0 []).reg 1).toInt + ((1 : Imm).toNat : Int)) := by decide

/-- R115 at the two ends of the data space, the first from a negative base. -/
theorem witness_three_readings :
    0 < (start 0 1 0xFFFFFFFF 2 0 []).memWords ∧ 1023 < (start 0 1 0xFFFF0400 2 0 []).memWords ∧
    (start 0 1 0xFFFFFFFF 2 0 []).dataAddress 1 1 = some 0 ∧
    (start 0 1 0xFFFF0400 2 0 []).dataAddress 1 65535 = some 1023 := by decide

/-- Two canonical memories that read alike, not empty. -/
theorem witness_canonical_memories :
    Memory.wf [(0, 1), (1023, 5)] ∧
    ∀ a, Memory.read [(0, 1), (1023, 5)] a = Memory.read (Memory.write [(0, 1)] 1023 5) a :=
  ⟨by decide, fun a => congrArg (Memory.read · a) (by decide : [(0, 1), (1023, 5)] = Memory.write [(0, 1)] 1023 5)⟩

/-- Two states that agree on `$1`, on memory and on its size and differ elsewhere. -/
theorem witness_sources :
    (∀ r ∈ sourcesOf (.addi 1 2 7), (start 0 1 5 3 1 []).reg r = (start 9 1 5 3 2 []).reg r) ∧
    (∀ a, (start 0 1 5 3 1 []).readMem a = (start 9 1 5 3 2 []).readMem a) ∧
    (start 0 1 5 3 1 []).memWords = (start 9 1 5 3 2 []).memWords ∧
    start 0 1 5 3 1 [] ≠ start 9 1 5 3 2 [] :=
  ⟨by decide, fun _ => rfl, rfl, by decide⟩

/-- Every branch of R131's statement has a word that is fetched. -/
theorem witness_reporting_steps :
    (∀ w : Word, (State.load [w]).program[(State.load [w]).pc]? = some w) ∧
    (0x00221820 : Word).toNat / 2 ^ 26 = 0 ∧ (0x00221820 : Word).toNat % 2 ^ 6 = 32 ∧
    (0x00221826 : Word).toNat / 2 ^ 26 = 0 ∧ (0x00221826 : Word).toNat % 2 ^ 6 = 38 ∧
    (0x2008FFFF : Word).toNat / 2 ^ 26 = 8 ∧ (0x08000000 : Word).toNat / 2 ^ 26 = 2 :=
  ⟨fun _ => rfl, by decide⟩

/-- R53's two clauses at the words where they meet. -/
theorem witness_classification :
    (0x03FFFFFF : Word).toNat / 2 ^ 26 = 0 ∧ (0x04000000 : Word).toNat / 2 ^ 26 ≠ 0 := by decide

/-- R57's own two words. -/
theorem witness_shift_amount :
    (0x00221820 : Word).toNat / 2 ^ 26 = 0 ∧
    (0x00221820 : Word) &&& 0xFFFFF83F = 0x00221FE0 &&& 0xFFFFF83F ∧
    (0x00221820 : Word) ≠ 0x00221FE0 := by decide

/-- A well-formed instruction of each kind of condition. -/
theorem witness_well_formed :
    wellFormed (.add 31 0 31) = true ∧ wellFormed (.unknownFunction 0 0 0 63) = true ∧
    wellFormed (.unknownOpcode 1 0 0 0) = true := by decide

/-- A fetched word and what it decodes to. -/
theorem witness_step_runs :
    (State.load [0x00221820]).program[(State.load [0x00221820]).pc]? = some 0x00221820 ∧
    decode 0x00221820 = some (.add 1 2 3) := by decide

theorem witness_halted : State.reset.program.length ≤ State.reset.pc := by decide

/-- Equal registers, memory and memory size under different programs, counters and traces. -/
theorem witness_execution_sees :
    State.reset.regs = { State.load [5] with pc := 1, trace := [(0, .unknownFunction 5)] }.regs ∧
    State.reset.mem = { State.load [5] with pc := 1, trace := [(0, .unknownFunction 5)] }.mem ∧
    State.reset.memWords =
      { State.load [5] with pc := 1, trace := [(0, .unknownFunction 5)] }.memWords :=
  ⟨rfl, rfl, rfl⟩

/-- A base in a register that is also the destination (95 part 2.4, aliasing). -/
theorem witness_read_before_write :
    5 < (start 0x8C210002 1 3 2 0 [(5, 0xFFFFFFF7)]).memWords ∧ ((start 0x8C210002 1 3 2 0 [(5, 0xFFFFFFF7)]).reg 1).toInt +
      ((2 : Imm).toNat : Int) = (5 : Nat) := by decide

/-- An instruction that reports. -/
theorem witness_reports : reportOf (.beq 1 1 2) ≠ none := by decide

theorem witness_run_length : (State.load [1, 2]).pc + 2 ≤ (State.load [1, 2]).program.length := by decide

/-- The invariant holds in a state in the middle of a program, with a report and a stored word. -/
theorem witness_inv :
    BlockInv { State.load [0, 0x2008FFFF] with
      pc := 1, trace := [(0, .unknownFunction 0)], mem := [(10, 12)] } := by
  unfold BlockInv; decide

/-- `SW $1,$2,#3`, an ADDI, then `LW $0,$3,#10` (95 P4 with a step between the two). -/
def storeThenLoad : State :=
  { ((State.load [0xAC220003, 0x20040001, 0x8C03000A]).setReg 1 7).setReg 2 12 with pc := 0 }

/-- The step after the store does not store to word 10. -/
theorem noStore_after_store (t : State) (h : step storeThenLoad = .next t) :
    (∃ u, run 1 t = .next u) ∧ ∀ j < 1, ∀ v, run j t = .next v → ¬ storesTo v 10 := by
  cases h
  refine ⟨⟨_, rfl⟩, fun j hj v hv => ?_⟩
  obtain rfl : j = 0 := by omega
  cases hv
  rintro ⟨w, i, hw, hi, ha⟩
  cases hw
  rw [show decode 0x20040001 = some (.addi 0 4 1) by decide] at hi
  cases hi
  cases ha

/-- A run of one step without a store to word 10. -/
theorem witness_unstored : ∃ s u,
    run 1 s = .next u ∧ ∀ j < 1, ∀ v, run j s = .next v → ¬ storesTo v 10 :=
  ⟨_, _, rfl, (noStore_after_store _ rfl).2⟩

/-- Each kind of outcome has a decoded instruction. -/
theorem witness_outcomes :
    (outcomeOf (.registerForm 1 2 3 32)).kind = .executed ∧
    (outcomeOf (.registerForm 1 2 3 33)).kind = .unknownFunction ∧
    (outcomeOf (.immediateForm 43 1 2 3)).kind = .executed ∧
    (outcomeOf (.immediateForm 0 1 2 3)).kind = .unknownOpcode ∧
    (outcomeOf .invalid).kind = .unknownOpcode := by decide

/-- The hypotheses of the load after a store, all together. -/
theorem witness_latest_store : ∃ t u,
    10 < storeThenLoad.memWords ∧ storeThenLoad.program[storeThenLoad.pc]? = some 0xAC220003 ∧
    decode 0xAC220003 = some (.sw 1 2 3) ∧
    (storeThenLoad.reg 1).toInt + ((3 : Imm).toNat : Int) = (10 : Nat) ∧
    step storeThenLoad = .next t ∧ run 1 t = .next u ∧
    (∀ j < 1, ∀ v, run j t = .next v → ¬ storesTo v 10) ∧
    u.program[u.pc]? = some 0x8C03000A ∧ decode 0x8C03000A = some (.lw 0 3 10) ∧
    (u.reg 0).toInt + ((10 : Imm).toNat : Int) = (10 : Nat) :=
  ⟨_, _, by decide, by decide, by decide, by decide, rfl, rfl, (noStore_after_store _ rfl).2,
    by decide, by decide, by decide⟩

/-- A token sequence that builds a program, with a literal at index 1. -/
theorem witness_tokens :
    (boot [.literal 2 [0], .literal 15 []]).isSome = true ∧
    ([Token.literal 2 [0], .literal 15 []])[1]? = some (.literal 15 []) := by decide

end Sys2Proof.Tests
end

section
/-! SUPPORT. What an instruction does to the state, as one value that its source registers, the memory
and the memory size determine; and that every instruction answers a next state. -/

namespace Sys2Proof.Machine

/-- What an instruction does beside advancing the counter: one of the four cases of `exec_cases`. -/
inductive Effect where
  | writeReg (r : RegNo) (v : Word)
  | store (a : Nat) (v : Word)
  | nothing
  | report (r : Report)

/-- The state after an instruction with the effect `e`. -/
def Effect.applyTo (e : Effect) (s : State) : State :=
  match e with
  | .writeReg r v => (s.setReg r v).finish .executed
  | .store a v => (s.writeMem a v).finish .executed
  | .nothing => s.finish .executed
  | .report r => s.reportStep r

/-- In both states the meaning `f` answers a next state, by one and the same effect. -/
def SameEffect (f : State → Host.Outcome State Fault Refusal) (s s' : State) : Prop :=
  ∃ e : Effect, f s = .next (e.applyTo s) ∧ f s' = .next (e.applyTo s')

/-- The two states agree on all that `i` reads: its source registers (10_state.md R13), the memory
words and the memory size. -/
def AgreeOnSources (i : Instr) (s s' : State) : Prop :=
  (∀ r ∈ sourcesOf i, s.reg r = s'.reg r) ∧ (∀ a, s.readMem a = s'.readMem a) ∧
    s.memWords = s'.memWords

section Effects
variable (e : Effect) (s s' : State)

@[simp] theorem Effect.pc_applyTo : (e.applyTo s).pc = s.pc + 1 := by cases e <;> rfl

/-- An effect writes the same value into a register of both states or leaves it alone in both. -/
theorem Effect.reg_applyTo_eq_or_kept (r : RegNo) :
    (e.applyTo s).reg r = (e.applyTo s').reg r ∨
      (e.applyTo s).reg r = s.reg r ∧ (e.applyTo s').reg r = s'.reg r := by
  cases e with
  | writeReg q v =>
    by_cases h : r = q
    · exact .inl (by simp [Effect.applyTo, h])
    · exact .inr (by simp [Effect.applyTo, State.reg_setReg_other _ _ _ _ h])
  | store a v => exact .inr ⟨rfl, rfl⟩
  | nothing => exact .inr ⟨rfl, rfl⟩
  | report p => exact .inr ⟨rfl, rfl⟩

variable {s s'}

theorem Effect.readMem_applyTo_congr (h : ∀ a, s.readMem a = s'.readMem a) (b : Nat) :
    (e.applyTo s).readMem b = (e.applyTo s').readMem b := by
  cases e with
  | writeReg r v => exact h b
  | store a v =>
    have hb : s.mem.read b = s'.mem.read b := h b
    simp [Effect.applyTo, State.readMem, Memory.read_write, hb]
  | nothing => exact h b
  | report r => exact h b

theorem Effect.regs_applyTo_congr (h : s.regs = s'.regs) :
    (e.applyTo s).regs = (e.applyTo s').regs := by
  cases e with
  | writeReg r v => exact congrArg (fun x => x.set r.toNat v r.isLt) h
  | store a v => exact h
  | nothing => exact h
  | report r => exact h

theorem Effect.mem_applyTo_congr (h : s.mem = s'.mem) :
    (e.applyTo s).mem = (e.applyTo s').mem := by
  cases e with
  | writeReg r v => exact h
  | store a v => exact congrArg (·.write a v) h
  | nothing => exact h
  | report r => exact h

end Effects

section Sources
variable {s s' : State} {rs rt : RegNo}

theorem AgreeOnSources.of_eq (i : Instr) (hr : s.regs = s'.regs) (hm : s.mem = s'.mem)
    (hn : s.memWords = s'.memWords) : AgreeOnSources i s s' :=
  ⟨fun r _ => by simp [State.reg, hr], fun a => by simp [State.readMem, hm], hn⟩

theorem State.dataAddress_congr (imm : Imm) (hr : s.reg rs = s'.reg rs)
    (hn : s.memWords = s'.memWords) : s.dataAddress rs imm = s'.dataAddress rs imm := by
  unfold State.dataAddress State.effectiveAddress
  rw [hr, hn]

/-- The family of R100: the result is determined by the two operands. -/
theorem registerOp_sameEffect (f : Word → Word → Word) (rd : RegNo)
    (hr : ∀ r ∈ [rs, rt], s.reg r = s'.reg r) : SameEffect (registerOp f rs rt rd) s s' := by
  refine ⟨.writeReg rd (f (s.reg rs) (s.reg rt)), rfl, ?_⟩
  rw [hr rs (by simp), hr rt (by simp)]
  rfl

theorem execAddi_sameEffect (rt : RegNo) (imm : Imm) (hs : s.reg rs = s'.reg rs) :
    SameEffect (execAddi rs rt imm) s s' :=
  ⟨.writeReg rt (wrap32 (s32 (s.reg rs) + zext32 imm)), rfl, by rw [hs]; rfl⟩

theorem exec_lw_sameEffect (rt : RegNo) (imm : Imm) (hs : s.reg rs = s'.reg rs)
    (hm : ∀ a, s.readMem a = s'.readMem a) (hn : s.memWords = s'.memWords) :
    SameEffect (exec (.lw rs rt imm)) s s' := by
  have haddr := State.dataAddress_congr imm hs hn
  cases ha : s.dataAddress rs imm with
  | none =>
    exact ⟨.nothing, exec_lw_out_of_bounds s rs rt imm ha,
      exec_lw_out_of_bounds s' rs rt imm (haddr ▸ ha)⟩
  | some a =>
    refine ⟨.writeReg rt (s.readMem a), exec_lw_in_bounds s rs rt imm ha, ?_⟩
    rw [hm a]
    exact exec_lw_in_bounds s' rs rt imm (haddr ▸ ha)

theorem exec_sw_sameEffect (imm : Imm) (hr : ∀ r ∈ [rs, rt], s.reg r = s'.reg r)
    (hn : s.memWords = s'.memWords) : SameEffect (exec (.sw rs rt imm)) s s' := by
  have haddr := State.dataAddress_congr imm (hr rs (by simp)) hn
  cases ha : s.dataAddress rs imm with
  | none =>
    exact ⟨.nothing, exec_sw_out_of_bounds s rs rt imm ha,
      exec_sw_out_of_bounds s' rs rt imm (haddr ▸ ha)⟩
  | some a =>
    refine ⟨.store a (s.reg rt), exec_sw_in_bounds s rs rt imm ha, ?_⟩
    rw [hr rt (by simp)]
    exact exec_sw_in_bounds s' rs rt imm (haddr ▸ ha)

/-- What an instruction reads determines what it does (10_state.md R13, 40_dispatch.md R80). -/
theorem exec_sameEffect {i : Instr} (h : AgreeOnSources i s s') : SameEffect (exec i) s s' := by
  obtain ⟨hr, hm, hn⟩ := h
  cases i with
  | add rs rt rd => exact registerOp_sameEffect (fun a b => wrap32 (s32 a + s32 b)) rd hr
  | sub rs rt rd => exact registerOp_sameEffect (fun a b => wrap32 (s32 a - s32 b)) rd hr
  | and rs rt rd => exact registerOp_sameEffect (fun a b => a &&& b) rd hr
  | or rs rt rd => exact registerOp_sameEffect (fun a b => a ||| b) rd hr
  | slt rs rt rd => exact registerOp_sameEffect (fun a b => truthWord (lessThan a b)) rd hr
  | addi rs rt imm => exact execAddi_sameEffect rt imm (hr rs List.mem_cons_self)
  | lw rs rt imm => exact exec_lw_sameEffect rt imm (hr rs List.mem_cons_self) hm hn
  | sw rs rt imm => exact exec_sw_sameEffect imm hr hn
  | beq rs rt imm => exact ⟨.report _, rfl, rfl⟩
  | bne rs rt imm => exact ⟨.report _, rfl, rfl⟩
  | unknownFunction rs rt rd funct => exact ⟨.report _, rfl, rfl⟩
  | unknownOpcode opcode rs rt imm => exact ⟨.report _, rfl, rfl⟩

theorem storeAddressOf_congr {i : Instr} (h : AgreeOnSources i s s') :
    storeAddressOf i s = storeAddressOf i s' := by
  obtain ⟨hr, -, hn⟩ := h
  cases i with
  | sw rs rt imm => exact State.dataAddress_congr imm (hr rs List.mem_cons_self) hn
  | _ => rfl

end Sources

/-- No instruction stops the block (40_dispatch.md R81). -/
theorem exists_exec_eq_next (i : Instr) (s : State) : ∃ t, exec i s = .next t :=
  let ⟨e, h, _⟩ := exec_sameEffect (AgreeOnSources.of_eq i (s := s) rfl rfl rfl)
  ⟨e.applyTo s, h⟩

end Sys2Proof.Machine
end

section
/-! SUPPORT. What every next state of an instruction has in common, the step of a fetched word, reset,
and from these the invariant of the block. -/

namespace Sys2Proof.Machine

section Answers
variable {i : Instr} {s t : State}

theorem exec_pc (h : exec i s = .next t) : t.pc = s.pc + 1 := by
  rcases exec_cases h with ⟨_, _, -, -, -, rfl⟩ | ⟨_, _, -, -, -, rfl⟩ | ⟨-, -, rfl⟩ |
    ⟨_, -, -, -, rfl⟩ <;> rfl

/-- An instruction appends its report, if it has one, under its own index (10_state.md R25). -/
theorem exec_trace (h : exec i s = .next t) :
    t.trace = s.trace ++ (reportOf i).toList.map (fun r => (s.pc, r)) := by
  rcases exec_cases h with ⟨_, _, -, -, hrep, rfl⟩ | ⟨_, _, -, -, hrep, rfl⟩ | ⟨-, hrep, rfl⟩ |
    ⟨_, -, -, hrep, rfl⟩ <;> simp [hrep, State.reportStep]

theorem exec_keeps_mem_wf (h : exec i s = .next t) (hwf : s.mem.wf) : t.mem.wf := by
  rcases exec_cases h with ⟨_, _, -, -, -, rfl⟩ | ⟨_, _, -, -, -, rfl⟩ | ⟨-, -, rfl⟩ |
    ⟨_, -, -, -, rfl⟩
  · exact hwf
  · exact Memory.wf_write hwf
  · exact hwf
  · exact hwf

/-- No instruction lists a word outside the data space (20_memory.md R31): a store is in bounds. -/
theorem exec_keeps_mem_bounded (h : exec i s = .next t) (hb : ∀ c ∈ s.mem, c.1 < s.memWords) :
    ∀ c ∈ t.mem, c.1 < t.memWords := by
  rcases exec_cases h with ⟨_, _, -, -, -, rfl⟩ | ⟨a, _, -, hst, -, rfl⟩ | ⟨-, -, rfl⟩ |
    ⟨_, -, -, -, rfl⟩
  · exact hb
  · intro c hc
    rcases Memory.mem_write hc with hca | hc
    · have hlt : a < s.memWords := storeAddressOf_lt hst
      exact hca ▸ hlt
    · exact hb c hc
  · exact hb
  · exact hb

end Answers

theorem exists_decode_eq_some (w : Word) : ∃ i, decode w = some i := by
  by_cases h : opcodeField w = 0
  · exact ⟨_, decode_of_opcode_zero h⟩
  · exact ⟨_, decode_of_opcode_ne_zero h⟩

/-- The step of a fetched word runs the instruction it decodes to (40_dispatch.md R88). -/
theorem step_of_decode {s : State} {w : Word} {i : Instr} (hf : s.fetch = some w)
    (hd : decode w = some i) : step s = exec i s := by
  have hstep : step s = execute (decodeForm w) s := by simp [step, hf]
  rw [hstep, execute_of_row hd]

/-- The trace of one more word is longer by that word's report. -/
theorem tracedFrom_take_succ {p : List Word} {n : Nat} {w : Word} (h : p[n]? = some w) :
    tracedFrom 0 (p.take (n + 1)) =
      tracedFrom 0 (p.take n) ++ (reportOfWord w).toList.map (fun r => (n, r)) := by
  have hn : n < p.length := (List.getElem?_eq_some_iff.1 h).1
  have hlen : (p.take n).length = n := List.length_take_of_le hn.le
  rw [List.take_add_one, h, Option.toList_some, tracedFrom_append, hlen]
  simp [tracedFrom]

/-- Reset clears every register, register 0 included (10_state.md R15). -/
@[simp] theorem State.reg_load (p : List Word) (n : Nat) (r : RegNo) :
    (State.load p n).reg r = Config.resetWord := by
  simp [State.reg, State.reset]

@[simp] theorem State.readMem_load (p : List Word) (n a : Nat) :
    (State.load p n).readMem a = Config.resetWord := rfl

theorem State.load_nil : State.load [] = State.reset := rfl

theorem blockInv_load (p : List Word) (n : Nat) : BlockInv (State.load p n) := by
  refine ⟨Memory.wf_nil, ?_, ?_, ?_⟩
  · simp
  · simp
  · simp [tracedFrom]

/-- The invariant passes from a state to the one after the instruction it fetches. -/
theorem blockInv_of_exec {s t : State} {w : Word} {i : Instr} (hinv : BlockInv s)
    (hf : s.fetch = some w) (hd : decode w = some i) (h : exec i s = .next t) : BlockInv t := by
  obtain ⟨hwf, hb, -, htrace⟩ := hinv
  obtain ⟨hprog, -⟩ := exec_sameParameters h
  have hpc : s.pc < s.program.length := (List.getElem?_eq_some_iff.1 hf).1
  refine ⟨exec_keeps_mem_wf h hwf, exec_keeps_mem_bounded h hb, ?_, ?_⟩
  · rw [exec_pc h, hprog]
    exact hpc
  · have hw : reportOfWord w = reportOf i := by simp [reportOfWord, hd]
    rw [exec_trace h, exec_pc h, hprog, tracedFrom_take_succ hf, htrace, hw]

end Sys2Proof.Machine
end

section
/-! SUPPORT. The statements of the state (10_state.md), settled. -/

namespace Sys2Proof.Proofs

open Sys2Proof Sys2Proof.Machine

/-- Settles O39: a halted block holds its state, and every other step is that of the fetched
instruction, which keeps the invariant (`blockInv_of_exec`). -/
theorem everyStepKeepsTheInvariant : Obligations.EveryStepKeepsTheInvariant := by
  intro s hinv
  cases hf : s.fetch with
  | none => exact ⟨s, step_of_fetch_none hf, hinv⟩
  | some w =>
    obtain ⟨i, hd⟩ := exists_decode_eq_some w
    obtain ⟨t, ht⟩ := exists_exec_eq_next i s
    exact ⟨t, (step_of_decode hf hd).trans ht, blockInv_of_exec hinv hf hd ht⟩

/-- Settles O32: the counter is nothing an instruction reads, so its effect is the same at any other. -/
theorem everyInstructionAdvancesTheCounterByOne :
    Obligations.EveryInstructionAdvancesTheCounterByOne := by
  intro i s p
  obtain ⟨e, h, h'⟩ :=
    exec_sameEffect (AgreeOnSources.of_eq i (s := s) (s' := { s with pc := p }) rfl rfl rfl)
  exact ⟨_, _, h, e.pc_applyTo s, h', e.pc_applyTo _, e.regs_applyTo_congr rfl,
    e.mem_applyTo_congr rfl⟩

/-- Settles O35: agreeing states give an instruction one effect (`exec_sameEffect`). -/
theorem instructionsReadOnlyTheirSources : Obligations.InstructionsReadOnlyTheirSources := by
  intro i s s' hr hm hn
  have hagree : AgreeOnSources i s s' := ⟨hr, hm, hn⟩
  obtain ⟨e, h, h'⟩ := exec_sameEffect hagree
  exact ⟨storeAddressOf_congr hagree, _, _, h, h', fun r _ => e.reg_applyTo_eq_or_kept s s' r,
    e.readMem_applyTo_congr hm⟩

/-- Settles O37: the register laws hold at register 0 as at any other; the word from reset is
`ADDI $0,$0,#1`. -/
theorem registerZeroIsOrdinary : Obligations.RegisterZeroIsOrdinary := by
  refine ⟨State.reg_load [] Config.memWords 0, fun s rs rt => ?_, ?_⟩
  · refine ⟨_, _, exec_add s rs rt 0, ?_, exec_or _ 0 0 1, ?_, ?_⟩
    · simp [wrap32_add]
    · simp [wrap32_add]
    · simp [State.reg_setReg]
  · have hd : decode 0x20000001 = some (.addi 0 0 1) := by decide
    refine ⟨_, (step_of_decode rfl hd).trans (exec_addi _ 0 0 1), ?_⟩
    simp [s32, zext32, wrap32]

/-- Settles O40: an empty memory, no word executed, an empty trace (`blockInv_load`). -/
theorem resetMeetsTheInvariant : Obligations.ResetMeetsTheInvariant :=
  ⟨blockInv_load [] Config.memWords, blockInv_load⟩

/-- Settles O41, field by field. -/
theorem resetClearsEverything : Obligations.ResetClearsEverything :=
  ⟨fun p n => ⟨State.reg_load p n, State.readMem_load p n, State.pc_load p n, State.trace_load p n,
    State.program_load p n, State.memWords_load p n⟩,
    fun p => State.memWords_load p Config.memWords, State.load_nil⟩

end Sys2Proof.Proofs
end

section
/-! SUPPORT. The canonical form of the data memory, by what it lists: exactly the words that read as
something else than the reset value. -/

namespace Sys2Proof.Machine

section Listed
variable {m m' : Memory} {a : Nat} {v : Word}

/-- A read that is not the reset value comes from a listed word. -/
theorem Memory.mem_of_read_eq (h : m.read a = v) (hv : v ≠ Config.resetWord) : (a, v) ∈ m := by
  induction m with
  | nil => exact absurd h.symm hv
  | cons c m ih =>
    rw [Memory.read_cons] at h
    split at h
    · rename_i hc
      exact List.mem_cons.2 (.inl (Prod.ext hc.symm h.symm))
    · exact List.mem_cons_of_mem c (ih h)

/-- Rising addresses list no address twice, so a listed word is the one that is read. -/
theorem Memory.read_eq_of_mem (hp : m.Pairwise (fun c d => c.1 < d.1)) (h : (a, v) ∈ m) :
    m.read a = v := by
  induction m with
  | nil => cases h
  | cons c m ih =>
    obtain ⟨hc, hp⟩ := List.pairwise_cons.1 hp
    rw [Memory.read_cons]
    rcases List.mem_cons.1 h with rfl | h
    · exact if_pos rfl
    · rw [if_neg (hc _ h).ne, ih hp h]

/-- What a memory in canonical form lists. -/
theorem Memory.mem_iff_read_eq (h : m.wf) :
    (a, v) ∈ m ↔ m.read a = v ∧ v ≠ Config.resetWord := by
  obtain ⟨hp, hnz⟩ := h
  exact ⟨fun hm => ⟨Memory.read_eq_of_mem hp hm, hnz _ hm⟩,
    fun ⟨hr, hv⟩ => Memory.mem_of_read_eq hr hv⟩

/-- Two rising lists of the same words are the same list. -/
theorem Memory.eq_of_mem_iff (h : m.wf) (h' : m'.wf) (hmem : ∀ c, c ∈ m ↔ c ∈ m') : m = m' := by
  have hirrefl : Std.Irrefl fun c d : Nat × Word => c.1 < d.1 := ⟨fun c => lt_irrefl c.1⟩
  have hantisymm : Std.Antisymm fun c d : Nat × Word => c.1 < d.1 :=
    ⟨fun _ _ hcd hdc => absurd hcd hdc.asymm⟩
  exact h.1.eq_of_mem_iff h'.1 hmem

end Listed

end Sys2Proof.Machine
end

section
/-! SUPPORT. What a store and a step leave of the memory words, and the data address of a load or store
by the formula of 43_load_store.md R115. -/

namespace Sys2Proof.Machine

section Words
variable (s : State) (a b : Nat) (v : Word)

@[simp] theorem State.readMem_writeMem_same : (s.writeMem a v).readMem a = v :=
  Memory.read_write_same s.mem a v

theorem State.readMem_writeMem_other (h : b ≠ a) : (s.writeMem a v).readMem b = s.readMem b :=
  Memory.read_write_other s.mem a b v h

end Words

section Address
variable {s : State} {rs : RegNo} {imm : Imm}

theorem State.dataAddress_of_sum_eq {a : Nat} (h : (s.reg rs).toInt + (imm.toNat : Int) = a)
    (ha : a < s.memWords) : s.dataAddress rs imm = some a :=
  (s.dataAddress_eq_some_iff rs imm a).2 ⟨h, ha⟩

theorem State.dataAddress_of_out_of_bounds
    (h : (s.reg rs).toInt + (imm.toNat : Int) < 0 ∨
      (s.memWords : Int) ≤ (s.reg rs).toInt + (imm.toNat : Int)) : s.dataAddress rs imm = none :=
  (s.dataAddress_eq_none_iff rs imm).2 h

end Address

/-- An instruction whose outcome is `Executed` and that writes nothing changes the counter alone. -/
theorem State.finish_executed_frame (s : State) :
    SameRegsExcept none s (s.finish .executed) ∧ SameMemExcept none s (s.finish .executed) ∧
      EndsExecuted s (s.finish .executed) :=
  ⟨fun _ _ => rfl, fun _ _ => rfl, rfl, List.append_nil s.trace, rfl, rfl⟩

section Frame
variable {s t u : State} {a k : Nat}

/-- An instruction changes no memory word but the one it stores to (40_dispatch.md R85). -/
theorem exec_sameMemExcept {i : Instr} (h : exec i s = .next t) :
    SameMemExcept (storeAddressOf i s) s t := by
  intro b hb
  rcases exec_cases h with ⟨_, _, -, -, -, rfl⟩ | ⟨c, v, -, hst, -, rfl⟩ | ⟨-, -, rfl⟩ |
    ⟨_, -, -, -, rfl⟩
  · rfl
  · have hne : b ≠ c := fun e => hb (by rw [hst, e])
    exact State.readMem_writeMem_other s c b v hne
  · rfl
  · rfl

/-- A step is that of the halted block or of the instruction fetched. -/
theorem step_cases (h : step s = .next t) :
    (s.fetch = none ∧ t = s) ∨
      ∃ w i, s.fetch = some w ∧ decode w = some i ∧ exec i s = .next t := by
  cases hf : s.fetch with
  | none =>
    rw [step_of_fetch_none hf] at h
    cases h
    exact .inl ⟨rfl, rfl⟩
  | some w =>
    obtain ⟨i, hd⟩ := exists_decode_eq_some w
    exact .inr ⟨w, i, rfl, hd, (step_of_decode hf hd).symm.trans h⟩

theorem step_keeps_unstored (h : step s = .next t) (hn : ¬ storesTo s a) :
    t.readMem a = s.readMem a := by
  rcases step_cases h with ⟨-, rfl⟩ | ⟨w, i, hf, hd, he⟩
  · rfl
  · exact exec_sameMemExcept he a fun hst => hn ⟨w, i, hf, hd, hst.symm⟩

theorem run_keeps_unstored (h : run k s = .next u)
    (hn : ∀ j < k, ∀ v, run j s = .next v → ¬ storesTo v a) : u.readMem a = s.readMem a := by
  induction k generalizing u with
  | zero => cases h; rfl
  | succ k ih =>
    obtain ⟨v, hv, hu⟩ := run_prefix h
    calc u.readMem a = v.readMem a := step_keeps_unstored hu (hn k k.lt_succ_self v hv)
      _ = s.readMem a := ih hv fun j hj => hn j (Nat.lt_succ_of_lt hj)

end Frame

section Transfer
variable {s t : State} {w : Word} {rs rt : RegNo} {imm : Imm} {a : Nat}

/-- After the step of an SW in bounds its address reads as the stored register (43 R117). -/
theorem readMem_of_step_sw (hw : s.fetch = some w) (hd : decode w = some (.sw rs rt imm))
    (ha : s.dataAddress rs imm = some a) (h : step s = .next t) : t.readMem a = s.reg rt := by
  rw [step_of_decode hw hd, exec_sw_in_bounds s rs rt imm ha] at h
  cases h
  simp

/-- The step of an LW in bounds answers a state whose register holds the word at its address (43 R116). -/
theorem exists_step_lw (hw : s.fetch = some w) (hd : decode w = some (.lw rs rt imm))
    (ha : s.dataAddress rs imm = some a) : ∃ v, step s = .next v ∧ v.reg rt = s.readMem a :=
  ⟨_, (step_of_decode hw hd).trans (exec_lw_in_bounds s rs rt imm ha), by simp⟩

end Transfer

end Sys2Proof.Machine
end

section
/-! SUPPORT. The statements of the data memory (20_memory.md), settled. -/

namespace Sys2Proof.Proofs

open Sys2Proof Sys2Proof.Machine

/-- Settles O12, by induction on the number of steps (`run_keeps_unstored`): a single step changes no
word but the one its instruction stores to. -/
theorem unstoredWordsKeepTheirValueOverARun : Obligations.UnstoredWordsKeepTheirValueOverARun :=
  fun _ _ _ _ => run_keeps_unstored

/-- Settles O13: the store leaves its word at `a`, the run keeps it there (`run_keeps_unstored`), and
the load finds `a` still in bounds, because no step resizes the memory. -/
theorem loadReturnsTheLatestStore : Obligations.LoadReturnsTheLatestStore := by
  intro s t u k a w w' rs rt rs' rt' imm imm' ha hw hd hsum hstep hrun hn hw' hd' hsum'
  have hsize : u.memWords = s.memWords :=
    (run_sameParameters hrun).2.trans (step_sameParameters hstep).2
  obtain ⟨v, hv, hload⟩ :=
    exists_step_lw hw' hd' (State.dataAddress_of_sum_eq hsum' (hsize ▸ ha))
  refine ⟨v, hv, ?_⟩
  calc v.reg rt' = u.readMem a := hload
    _ = t.readMem a := run_keeps_unstored hrun hn
    _ = s.reg rt := readMem_of_step_sw hw hd (State.dataAddress_of_sum_eq hsum ha) hstep

/-- Settles O10: out of bounds there is no data address, and both instructions only end. -/
theorem outOfBoundsAccessesAreSilentlySkipped :
    Obligations.OutOfBoundsAccessesAreSilentlySkipped := by
  intro s rs rt imm hout i hi
  have hnone := State.dataAddress_of_out_of_bounds hout
  refine ⟨s.finish .executed, ?_, s.finish_executed_frame⟩
  rcases List.mem_pair.1 hi with rfl | rfl
  · exact exec_lw_out_of_bounds s rs rt imm hnone
  · exact exec_sw_out_of_bounds s rs rt imm hnone

/-- Settles O14: memories that read alike list the same words (`Memory.mem_iff_read_eq`). -/
theorem memoriesThatReadAlikeAreEqual : Obligations.MemoriesThatReadAlikeAreEqual := by
  intro m m' h h' hread
  refine Memory.eq_of_mem_iff h h' fun ⟨a, v⟩ => ?_
  rw [Memory.mem_iff_read_eq h, Memory.mem_iff_read_eq h', hread a]

end Sys2Proof.Proofs
end

section
/-! SUPPORT. The fields of a word as slices of its number, what the encoder makes of them, and the
two classes of 30_encoding.md R53 by what decoding keeps of a word. -/

namespace Sys2Proof

open Sys2Proof.Machine

section Fields
variable (w : Word)

/-- The slice `(w / 2^lo) mod 2^n` (00_scope.md R7). -/
theorem extractLsb'_eq_ofNat_slice (lo n : Nat) :
    w.extractLsb' lo n = BitVec.ofNat n (w.toNat / 2 ^ lo % 2 ^ n) := by
  apply BitVec.eq_of_toNat_eq
  simp [Nat.shiftRight_eq_div_pow]

/-- The slice of the top bits needs no `mod`. -/
theorem opcodeField_eq_ofNat : opcodeField w = BitVec.ofNat 6 (w.toNat / 2 ^ 26) := by
  have hlt : w.toNat / 2 ^ 26 < 2 ^ 6 := by omega
  rw [opcodeField, extractLsb'_eq_ofNat_slice, Nat.mod_eq_of_lt hlt]

theorem rsField_eq_ofNat : rsField w = BitVec.ofNat 5 (w.toNat / 2 ^ 21 % 2 ^ 5) :=
  extractLsb'_eq_ofNat_slice w 21 5

theorem rtField_eq_ofNat : rtField w = BitVec.ofNat 5 (w.toNat / 2 ^ 16 % 2 ^ 5) :=
  extractLsb'_eq_ofNat_slice w 16 5

theorem rdField_eq_ofNat : rdField w = BitVec.ofNat 5 (w.toNat / 2 ^ 11 % 2 ^ 5) :=
  extractLsb'_eq_ofNat_slice w 11 5

theorem functField_eq_ofNat : functField w = BitVec.ofNat 6 (w.toNat % 2 ^ 6) := by
  rw [functField, extractLsb'_eq_ofNat_slice, pow_zero, Nat.div_one]

theorem immField_eq_ofNat : immField w = BitVec.ofNat 16 (w.toNat % 2 ^ 16) := by
  rw [immField, extractLsb'_eq_ofNat_slice, pow_zero, Nat.div_one]

/-- The classification of R53 in the model's term and in the spec's. -/
theorem opcodeField_eq_zero_iff : opcodeField w = 0 ↔ w.toNat / 2 ^ 26 = 0 := by
  have hlt : w.toNat / 2 ^ 26 < 2 ^ 6 := by omega
  rw [opcodeField_eq_ofNat, ← BitVec.toNat_inj, BitVec.toNat_ofNat, Nat.mod_eq_of_lt hlt]
  rfl

/-- The port `is_imm` tells the class (R62). -/
theorem isImm_decoderPorts : (decoderPorts w).isImm = true ↔ opcodeField w ≠ 0 := bne_iff_ne

/-- A word is made of the four fields of R55. -/
theorem encodeI_fields : encodeI (opcodeField w) (rsField w) (rtField w) (immField w) = w := by
  ext i hi; interval_cases i <;> simp [encodeI, opcodeField, rsField, rtField, immField]

/-- Outside bits 10-6 a word is made of its opcode and the four fields of R54. -/
theorem and_shamtMask :
    w &&& 0xFFFFF83F#32 = (opcodeField w).setWidth 32 <<< 26 |||
      encodeR (rsField w) (rtField w) (rdField w) (functField w) := by
  ext i hi; interval_cases i <;>
    simp [encodeR, opcodeField, rsField, rtField, rdField, functField]

/-- Bits 10-6 are no part of the opcode. -/
@[simp] theorem opcodeField_and_shamtMask : opcodeField (w &&& 0xFFFFF83F#32) = opcodeField w := by
  ext i hi; interval_cases i <;> simp [opcodeField]

end Fields

theorem encodeR_fields {w : Word} (h : opcodeField w = 0) :
    encodeR (rsField w) (rtField w) (rdField w) (functField w) = w &&& 0xFFFFF83F#32 := by
  simp [and_shamtMask, h]

section Encoder
variable (rs rt rd : RegNo) (imm : Imm)

/-- The row of a function code is encoded with that code, named or not. -/
@[simp] theorem encode_registerRow (funct : Code) :
    encode (registerRow rs rt rd funct) = encodeR rs rt rd funct := by
  unfold registerRow
  repeat' split
  all_goals simp_all [encode]

/-- The row of an opcode is encoded with that opcode, named or not. -/
@[simp] theorem encode_immediateRow (opcode : Code) :
    encode (immediateRow opcode rs rt imm) = encodeI opcode rs rt imm := by
  unfold immediateRow
  repeat' split
  all_goals simp_all [encode]

theorem decodeForm_encodeR (funct : Code) :
    decodeForm (encodeR rs rt rd funct) = .registerForm rs rt rd funct := by
  simp [decodeForm]

theorem decode_encodeR (funct : Code) :
    decode (encodeR rs rt rd funct) = some (registerRow rs rt rd funct) := by
  rw [decode, decodeForm_encodeR, Decoded.row]

theorem decode_encodeI {opcode : Code} (h : opcode ≠ 0) :
    decode (encodeI opcode rs rt imm) = some (immediateRow opcode rs rt imm) := by
  have hop : opcodeField (encodeI opcode rs rt imm) ≠ 0 := by rwa [opcodeField_encodeI]
  simp [decode_of_opcode_ne_zero hop]

theorem registerRow_of_unnamed {funct : Code}
    (h : wellFormed (.unknownFunction rs rt rd funct) = true) :
    registerRow rs rt rd funct = .unknownFunction rs rt rd funct := by
  simp_all [wellFormed, namedFunctions, registerRow]

theorem immediateRow_of_unnamed {opcode : Code}
    (h : wellFormed (.unknownOpcode opcode rs rt imm) = true) :
    immediateRow opcode rs rt imm = .unknownOpcode opcode rs rt imm := by
  simp_all [wellFormed, namedOpcodes, immediateRow]

theorem opcode_ne_zero_of_wellFormed {opcode : Code}
    (h : wellFormed (.unknownOpcode opcode rs rt imm) = true) : opcode ≠ 0 := by
  rintro rfl
  simp [wellFormed, namedOpcodes] at h

end Encoder

/-- Decoding and encoding give the word back, under opcode 0 without its bits 10-6. -/
theorem exists_decode_wellFormed_encode (w : Word) :
    ∃ i, decode w = some i ∧ wellFormed i = true ∧
      encode i = if opcodeField w = 0 then w &&& 0xFFFFF83F#32 else w := by
  by_cases h : opcodeField w = 0
  · refine ⟨_, decode_of_opcode_zero h, registerRow_wellFormed _ _ _ _, ?_⟩
    rw [encode_registerRow, encodeR_fields h, if_pos h]
  · refine ⟨_, decode_of_opcode_ne_zero h, immediateRow_wellFormed h _ _ _, ?_⟩
    rw [encode_immediateRow, encodeI_fields, if_neg h]

section Forgets
variable {w v : Word}

theorem decodeForm_and_shamtMask (h : opcodeField w = 0) :
    decodeForm (w &&& 0xFFFFF83F#32) = decodeForm w := by
  rw [← encodeR_fields h, decodeForm_encodeR, decodeForm_of_opcode_zero h]

/-- The two variants are different values, so the decoded value tells the class of the word. -/
theorem opcodeField_eq_zero_of_decodeForm_eq (h : decodeForm w = decodeForm v)
    (hw : opcodeField w = 0) : opcodeField v = 0 := by
  by_contra hv
  rw [decodeForm_of_opcode_zero hw, decodeForm_of_opcode_ne_zero hv] at h
  cases h

/-- Under opcode 0 decoding forgets exactly bits 10-6 (R57, R61). -/
theorem decodeForm_eq_iff_of_opcode_zero (hw : opcodeField w = 0) :
    decodeForm w = decodeForm v ↔ w &&& 0xFFFFF83F#32 = v &&& 0xFFFFF83F#32 := by
  constructor
  · intro h
    have hv := opcodeField_eq_zero_of_decodeForm_eq h hw
    rw [decodeForm_of_opcode_zero hw, decodeForm_of_opcode_zero hv] at h
    injection h with hrs hrt hrd hfunct
    rw [← encodeR_fields hw, ← encodeR_fields hv, hrs, hrt, hrd, hfunct]
  · intro h
    have hv : opcodeField v = 0 := by
      rw [← opcodeField_and_shamtMask, ← h, opcodeField_and_shamtMask, hw]
    rw [← decodeForm_and_shamtMask hw, h, decodeForm_and_shamtMask hv]

/-- Under every other opcode decoding forgets nothing (R61). -/
theorem decodeForm_eq_iff_of_opcode_ne_zero (hw : opcodeField w ≠ 0) :
    decodeForm w = decodeForm v ↔ w = v := by
  refine ⟨fun h => ?_, congrArg decodeForm⟩
  have hv : opcodeField v ≠ 0 := fun hv => hw (opcodeField_eq_zero_of_decodeForm_eq h.symm hv)
  rw [decodeForm_of_opcode_ne_zero hw, decodeForm_of_opcode_ne_zero hv] at h
  injection h with hop hrs hrt himm
  rw [← encodeI_fields w, ← encodeI_fields v, hop, hrs, hrt, himm]

end Forgets

end Sys2Proof
end

section
/-! SUPPORT. The opcode table (30_encoding.md R65): which words a row selects, and that the rows in
order of priority name the decoded instruction. -/

namespace Sys2Proof

open Sys2Proof.Machine

section Masks
variable (w : Word) (c : Code)

@[simp] theorem opcodeField_and_functMask : opcodeField (w &&& 0xFC00003F#32) = opcodeField w := by
  ext i hi; interval_cases i <;> simp [opcodeField]

@[simp] theorem functField_and_functMask : functField (w &&& 0xFC00003F#32) = functField w := by
  ext i hi; interval_cases i <;> simp [functField]

@[simp] theorem opcodeField_and_opcodeMask : opcodeField (w &&& 0xFC000000#32) = opcodeField w := by
  ext i hi; interval_cases i <;> simp [opcodeField]

/-- The words of an R-type row are those of opcode 0 with its function code (R64, R65). -/
theorem and_functMask_eq_iff :
    w &&& 0xFC00003F#32 = c.setWidth 32 ↔ opcodeField w = 0 ∧ functField w = c := by
  constructor
  · intro h
    have hc : c.setWidth 32 = encodeR 0 0 0 c := by simp [encodeR]
    rw [hc] at h
    have hop := congrArg opcodeField h
    have hfunct := congrArg functField h
    rw [opcodeField_and_functMask, opcodeField_encodeR] at hop
    rw [functField_and_functMask, functField_encodeR] at hfunct
    exact ⟨hop, hfunct⟩
  · rintro ⟨hop, hfunct⟩
    simp [and_functMask, hop, hfunct]

/-- The words of an I-type row are those with its opcode (R63, R65). -/
theorem and_opcodeMask_eq_iff :
    w &&& 0xFC000000#32 = c.setWidth 32 <<< 26 ↔ opcodeField w = c := by
  constructor
  · intro h
    have hc : c.setWidth 32 <<< 26 = encodeI c 0 0 0 := by simp [encodeI]
    rw [hc] at h
    have hop := congrArg opcodeField h
    rwa [opcodeField_and_opcodeMask, opcodeField_encodeI] at hop
  · rintro rfl
    exact and_opcodeMask w

end Masks

namespace Machine

section Rows
variable {r q : OpcodeRow} {w : Word} {i : Instr}

theorem OpcodeRow.selects_iff : r.selects w = true ↔ w &&& r.mask = r.pattern := beq_iff_eq

/-- No row looks at bits 10-6. -/
theorem OpcodeRow.selects_and_shamtMask (hr : r ∈ opcodeTable) (w : Word) :
    r.selects (w &&& 0xFFFFF83F#32) = r.selects w := by
  have hmask : ∀ r ∈ opcodeTable, 0xFFFFF83F#32 &&& r.mask = r.mask := by decide
  simp [OpcodeRow.selects, BitVec.and_assoc, hmask r hr]

/-- A mnemonic names one row of the table. -/
theorem opcodeTable_mnemonic_unique :
    ∀ r ∈ opcodeTable, ∀ q ∈ opcodeTable, q.mnemonic = r.mnemonic → q = r := by decide

/-- A word that the pattern of an R-type row selects decodes to the row of its function code. -/
theorem eq_registerRow_of_decode (c : Code) (hd : decode w = some i)
    (hw : w &&& 0xFC00003F#32 = c.setWidth 32) : ∃ rs rt rd, i = registerRow rs rt rd c := by
  obtain ⟨hop, rfl⟩ := (and_functMask_eq_iff w c).1 hw
  rw [decode_of_opcode_zero hop, Option.some_inj] at hd
  exact ⟨_, _, _, hd.symm⟩

/-- A word that the pattern of an I-type row selects decodes to the row of its opcode. -/
theorem eq_immediateRow_of_decode (c : Code) (hc : c ≠ 0) (hd : decode w = some i)
    (hw : w &&& 0xFC000000#32 = c.setWidth 32 <<< 26) :
    ∃ rs rt imm, i = immediateRow c rs rt imm := by
  rw [and_opcodeMask_eq_iff] at hw
  subst hw
  rw [decode_of_opcode_ne_zero hc, Option.some_inj] at hd
  exact ⟨_, _, _, hd.symm⟩

/-- A named row selects only words of its own mnemonic. -/
theorem mnemonic_eq_of_namedRow_selects (hq : q ∈ namedRows) (hw : q.selects w = true)
    (hd : decode w = some i) : q.mnemonic = i.mnemonic := by
  rw [OpcodeRow.selects_iff] at hw
  simp only [namedRows, List.mem_cons, List.not_mem_nil, or_false] at hq
  rcases hq with rfl | rfl | rfl | rfl | rfl | rfl | rfl | rfl | rfl | rfl
  · obtain ⟨_, _, _, rfl⟩ := eq_registerRow_of_decode 32 hd hw; rfl
  · obtain ⟨_, _, _, rfl⟩ := eq_registerRow_of_decode 34 hd hw; rfl
  · obtain ⟨_, _, _, rfl⟩ := eq_registerRow_of_decode 36 hd hw; rfl
  · obtain ⟨_, _, _, rfl⟩ := eq_registerRow_of_decode 37 hd hw; rfl
  · obtain ⟨_, _, _, rfl⟩ := eq_registerRow_of_decode 42 hd hw; rfl
  · obtain ⟨_, _, _, rfl⟩ := eq_immediateRow_of_decode 4 (by decide) hd hw; rfl
  · obtain ⟨_, _, _, rfl⟩ := eq_immediateRow_of_decode 5 (by decide) hd hw; rfl
  · obtain ⟨_, _, _, rfl⟩ := eq_immediateRow_of_decode 8 (by decide) hd hw; rfl
  · obtain ⟨_, _, _, rfl⟩ := eq_immediateRow_of_decode 35 (by decide) hd hw; rfl
  · obtain ⟨_, _, _, rfl⟩ := eq_immediateRow_of_decode 43 (by decide) hd hw; rfl

/-- The default row of opcode 0 selects no word of the last row. -/
theorem mnemonic_ne_of_opcode_zero_row_selects (hw : w &&& 0xFC000000#32 = 0)
    (hd : decode w = some i) : i.mnemonic ≠ "UNKNOWN_OPCODE" := by
  have hop : opcodeField w = 0 := (and_opcodeMask_eq_iff w 0).1 hw
  rw [decode_of_opcode_zero hop, Option.some_inj] at hd
  subst hd
  unfold registerRow
  repeat' split
  all_goals simp [Instr.mnemonic]

/-- Every row that selects a word is the row of the decoded instruction or comes after it. -/
theorem eq_or_priority_lt_of_selects (hd : decode w = some i) (hr : r ∈ opcodeTable)
    (hri : r.mnemonic = i.mnemonic) (hq : q ∈ opcodeTable) (hw : q.selects w = true) :
    q = r ∨ r.priority < q.priority := by
  have hlast : ∀ r ∈ opcodeTable,
      ⟨"UNKNOWN_OPCODE", 0x00000000, 0x00000000, 2⟩ = r ∨ r.priority < 2 := by decide
  have hbeforeLast : ∀ r ∈ opcodeTable, r.mnemonic ≠ "UNKNOWN_OPCODE" →
      ⟨"UNKNOWN_FUNCTION", 0xFC000000, 0x00000000, 1⟩ = r ∨ r.priority < 1 := by decide
  rcases List.mem_append.1 hq with hnamed | hdefault
  · have hqi := mnemonic_eq_of_namedRow_selects hnamed hw hd
    exact .inl (opcodeTable_mnemonic_unique r hr q hq (hqi.trans hri.symm))
  · rcases List.mem_pair.1 hdefault with rfl | rfl
    · have hne := mnemonic_ne_of_opcode_zero_row_selects (OpcodeRow.selects_iff.1 hw) hd
      exact hbeforeLast r hr (hri ▸ hne)
    · exact hlast r hr

/-- Every instruction has a row that selects its word (30_encoding.md R65, R71). -/
theorem exists_row_selects_encode (i : Instr) : Laws.Encoded.Statement i := by
  cases i with
  | add rs rt rd => exact Laws.Encoded.add rs rt rd
  | sub rs rt rd => exact Laws.Encoded.sub rs rt rd
  | and rs rt rd => exact Laws.Encoded.and rs rt rd
  | or rs rt rd => exact Laws.Encoded.or rs rt rd
  | slt rs rt rd => exact Laws.Encoded.slt rs rt rd
  | beq rs rt imm => exact Laws.Encoded.beq rs rt imm
  | bne rs rt imm => exact Laws.Encoded.bne rs rt imm
  | addi rs rt imm => exact Laws.Encoded.addi rs rt imm
  | lw rs rt imm => exact Laws.Encoded.lw rs rt imm
  | sw rs rt imm => exact Laws.Encoded.sw rs rt imm
  | unknownFunction rs rt rd funct => exact Laws.Encoded.unknownFunction rs rt rd funct
  | unknownOpcode opcode rs rt imm => exact Laws.Encoded.unknownOpcode rs rt imm opcode

/-- The row of the decoded instruction selects the word, whatever its bits 10-6. -/
theorem exists_row_selects_of_decode (hd : decode w = some i) :
    ∃ r ∈ opcodeTable, r.mnemonic = i.mnemonic ∧ r.selects w = true := by
  obtain ⟨j, hj, -, henc⟩ := exists_decode_wellFormed_encode w
  obtain rfl : i = j := Option.some_inj.1 (hd.symm.trans hj)
  obtain ⟨r, hr, hmn, hsel⟩ := exists_row_selects_encode i
  refine ⟨r, hr, hmn, ?_⟩
  rw [henc] at hsel
  split at hsel
  · rwa [OpcodeRow.selects_and_shamtMask hr] at hsel
  · exact hsel

end Rows

end Machine

end Sys2Proof
end

section
/-! SUPPORT. The statements of decoding and encoding (30_encoding.md), settled. -/

namespace Sys2Proof.Proofs

open Sys2Proof Sys2Proof.Machine

/-- Settles O26: the fields read from an encoded word are the operands (`decode_encodeR`,
`decode_encodeI`), and the code selects the row; for a default row that is what well-formed says. -/
theorem decodeOfEncodeIsTheInstruction : Obligations.DecodeOfEncodeIsTheInstruction := by
  intro i hwf
  cases i with
  | add rs rt rd => exact decode_encodeR rs rt rd 32
  | sub rs rt rd => exact decode_encodeR rs rt rd 34
  | and rs rt rd => exact decode_encodeR rs rt rd 36
  | or rs rt rd => exact decode_encodeR rs rt rd 37
  | slt rs rt rd => exact decode_encodeR rs rt rd 42
  | beq rs rt imm => exact decode_encodeI rs rt imm (by decide)
  | bne rs rt imm => exact decode_encodeI rs rt imm (by decide)
  | addi rs rt imm => exact decode_encodeI rs rt imm (by decide)
  | lw rs rt imm => exact decode_encodeI rs rt imm (by decide)
  | sw rs rt imm => exact decode_encodeI rs rt imm (by decide)
  | unknownFunction rs rt rd funct =>
    rw [encode, decode_encodeR, registerRow_of_unnamed rs rt rd hwf]
  | unknownOpcode opcode rs rt imm =>
    rw [encode, decode_encodeI rs rt imm (opcode_ne_zero_of_wellFormed rs rt imm hwf),
      immediateRow_of_unnamed rs rt imm hwf]

/-- Settles O22: each class of `decodeForm`, its fields written as the spec's slices. -/
theorem decoderClassifiesByTheTopSixBits : Obligations.DecoderClassifiesByTheTopSixBits := by
  intro w
  rw [Ne, ← opcodeField_eq_zero_iff, ← rsField_eq_ofNat, ← rtField_eq_ofNat, ← rdField_eq_ofNat,
    ← functField_eq_ofNat, ← opcodeField_eq_ofNat, ← immField_eq_ofNat]
  exact ⟨decodeForm_of_opcode_zero, decodeForm_of_opcode_ne_zero⟩

/-- Settles O23: the forms are equal (`decodeForm_eq_iff_of_opcode_zero`), and the row and the
execution depend on the form alone. -/
theorem shiftAmountBitsAreIgnored : Obligations.ShiftAmountBitsAreIgnored := by
  intro w v hw hwv
  have hform : decodeForm w = decodeForm v :=
    (decodeForm_eq_iff_of_opcode_zero ((opcodeField_eq_zero_iff w).2 hw)).2 hwv
  exact ⟨hform, congrArg Decoded.row hform, fun s => congrArg (execute · s) hform⟩

/-- Settles O24, class by class: what a form's fields make up is all of the word that it keeps. -/
theorem decodingForgetsOnlyTheShiftAmount : Obligations.DecodingForgetsOnlyTheShiftAmount := by
  intro w v
  rw [Ne, ← opcodeField_eq_zero_iff]
  by_cases hw : opcodeField w = 0
  · simp [hw, decodeForm_eq_iff_of_opcode_zero hw]
  · simp only [decodeForm_eq_iff_of_opcode_ne_zero hw, hw, not_false_iff, true_and, false_and,
      or_false]

/-- Settles O27: the decoded row is encoded with the word's own fields. -/
theorem everyWordDecodesAndIsReencoded : Obligations.EveryWordDecodesAndIsReencoded := by
  intro w
  simp only [← opcodeField_eq_zero_iff]
  exact exists_decode_wellFormed_encode w

/-- Settles O28: the decoded instruction's row selects the word, and every other row that selects it
comes later. -/
theorem theOpcodeTableSelectsTheDecodedRow : Obligations.TheOpcodeTableSelectsTheDecodedRow := by
  intro w
  obtain ⟨i, hd⟩ := exists_decode_eq_some w
  obtain ⟨r, hr, hmn, hsel⟩ := exists_row_selects_of_decode hd
  exact ⟨i, hd, r, hr, hmn, hsel, fun q hq => eq_or_priority_lt_of_selects hd hr hmn hq⟩

/-- Settles O25, by the two classes: the port `is_imm` is set exactly when the opcode is not 0. -/
theorem portsCarryTheDecodedForm : Obligations.PortsCarryTheDecodedForm := by
  intro w
  by_cases h : opcodeField w = 0
  · rw [decodeForm_of_opcode_zero h, if_neg (mt (isImm_decoderPorts w).1 (not_not_intro h))]
    rfl
  · rw [decodeForm_of_opcode_ne_zero h, if_pos ((isImm_decoderPorts w).2 h)]
    rfl

/-- Settles O29, by decoding the eight words. -/
theorem writtenOutWordsDecode : Obligations.WrittenOutWordsDecode := by
  unfold Obligations.WrittenOutWordsDecode
  decide

end Sys2Proof.Proofs
end

section
/-! SUPPORT. What an executing and a reporting row leave of the state, the report of the row that a code
selects, and the steps of a run up to the program's end (40_dispatch.md R81 to R91). -/

namespace Sys2Proof.Machine

section Rows
variable {i : Instr} {s t : State}

/-- An instruction changes no register but its destination (R85). -/
theorem exec_sameRegsExcept (h : exec i s = .next t) : SameRegsExcept (destOf i) s t := by
  intro q hq
  rcases exec_cases h with ⟨rd, v, hdest, -, -, rfl⟩ | ⟨_, _, -, -, -, rfl⟩ | ⟨-, -, rfl⟩ |
    ⟨_, -, -, -, rfl⟩
  · have hne : q ≠ rd := fun e => hq (by rw [hdest, e])
    exact State.reg_setReg_other s rd q v hne
  · rfl
  · rfl
  · rfl

/-- No instruction both has a destination register and stores (R85). -/
theorem exec_destOf_or_storeAddressOf_eq_none (h : exec i s = .next t) :
    destOf i = none ∨ storeAddressOf i s = none := by
  rcases exec_cases h with ⟨_, _, -, hst, -, -⟩ | ⟨_, _, hdest, -, -, -⟩ | ⟨hst, -, -⟩ |
    ⟨_, hdest, -, -, -⟩
  · exact .inr hst
  · exact .inl hdest
  · exact .inr hst
  · exact .inl hdest

/-- A reporting instruction has no location to write (R85). -/
theorem destOf_storeAddressOf_eq_none_of_reportOf {r : Report} (hr : reportOf i = some r) (s : State) :
    destOf i = none ∧ storeAddressOf i s = none := by
  obtain ⟨t, h⟩ := exists_exec_eq_next i s
  rcases exec_cases h with ⟨_, _, -, -, hn, -⟩ | ⟨_, _, -, -, hn, -⟩ | ⟨-, hn, -⟩ |
    ⟨_, hdest, hst, -, -⟩
  · cases hn.symm.trans hr
  · cases hn.symm.trans hr
  · cases hn.symm.trans hr
  · exact ⟨hdest, hst⟩

theorem exec_endsExecuted (h : exec i s = .next t) (hr : reportOf i = none) : EndsExecuted s t :=
  ⟨exec_pc h, by simp [exec_trace h, hr], exec_sameParameters h⟩

theorem exec_onlyReports {r : Report} (h : exec i s = .next t) (hr : reportOf i = some r) :
    OnlyReports r s t := by
  obtain ⟨hdest, hst⟩ := destOf_storeAddressOf_eq_none_of_reportOf hr s
  exact ⟨hdest ▸ exec_sameRegsExcept h, hst ▸ exec_sameMemExcept h, exec_pc h,
    by simp [exec_trace h, hr], exec_sameParameters h⟩

end Rows

section Outcomes
variable (rs rt rd : RegNo) (imm : Imm)

/-- The five function codes with a row of their own execute; the row of any other reports it
(30_encoding.md R64, R84). -/
theorem reportOf_registerRow (funct : Code) :
    reportOf (registerRow rs rt rd funct) =
      if funct.toNat ∈ [32, 34, 36, 37, 42] then none else some (.unknownFunction funct) := by
  unfold registerRow
  repeat' split
  all_goals simp_all [reportOf, BitVec.toNat_eq]

/-- Three opcodes execute; the row of any other reports it, the rows of BEQ and BNE included
(30_encoding.md R63, R84). -/
theorem reportOf_immediateRow (opcode : Code) :
    reportOf (immediateRow opcode rs rt imm) =
      if opcode.toNat ∈ [8, 35, 43] then none else some (.unknownOpcode (some opcode)) := by
  unfold immediateRow
  repeat' split
  all_goals simp_all [reportOf, BitVec.toNat_eq]

/-- The outcome of the dispatch table is the report of the row, `Executed` when it has none. -/
theorem outcomeOf_of_row {d : Decoded} {i : Instr} (h : d.row = some i) :
    outcomeOf d = (reportOf i).elim .executed .report := by
  cases d with
  | registerForm rs rt rd funct =>
    cases h
    simp only [reportOf_registerRow, outcomeOf]
    split <;> rfl
  | immediateForm opcode rs rt imm =>
    cases h
    simp only [reportOf_immediateRow, outcomeOf]
    split <;> rfl
  | invalid => cases h

/-- `Invalid` selects no row and is reported without a code (44_branch_and_unknown.md R130). -/
theorem execute_invalid_onlyReports (s : State) :
    ∃ t, execute .invalid s = .next t ∧ OnlyReports (.unknownOpcode none) s t :=
  ⟨_, rfl, fun _ _ => rfl, fun _ _ => rfl, rfl, rfl, rfl, rfl⟩

/-- `execute` does what the outcome of the dispatch table says (R80, R81). -/
theorem exists_execute_eq_next (d : Decoded) (s : State) :
    ∃ t, execute d s = .next t ∧ (outcomeOf d = .executed → EndsExecuted s t) ∧
      ∀ r, outcomeOf d = .report r → OnlyReports r s t := by
  cases hrow : d.row with
  | none =>
    cases d with
    | registerForm rs rt rd funct => cases hrow
    | immediateForm opcode rs rt imm => cases hrow
    | invalid =>
      obtain ⟨t, ht, hrep⟩ := execute_invalid_onlyReports s
      exact ⟨t, ht, nofun, fun r h => by cases h; exact hrep⟩
  | some i =>
    obtain ⟨t, ht⟩ := exists_exec_eq_next i s
    rw [execute_of_row hrow, outcomeOf_of_row hrow]
    refine ⟨t, ht, ?_⟩
    cases hr : reportOf i with
    | none => exact ⟨fun _ => exec_endsExecuted ht hr, nofun⟩
    | some p => exact ⟨nofun, fun r h => by cases h; exact exec_onlyReports ht hr⟩

end Outcomes

section Runs
variable {s : State} {k : Nat}

/-- While a word is left, a step answers a next state with the counter one further (R88). -/
theorem exists_step_pc_succ (h : s.pc < s.program.length) :
    ∃ t, step s = .next t ∧ t.pc = s.pc + 1 := by
  have hf : s.fetch = some s.program[s.pc] := List.getElem?_eq_getElem h
  obtain ⟨i, hd⟩ := exists_decode_eq_some s.program[s.pc]
  obtain ⟨t, ht⟩ := exists_exec_eq_next i s
  exact ⟨t, (step_of_decode hf hd).trans ht, exec_pc ht⟩

/-- A run over words that are all there advances the counter by its steps (R89). -/
theorem exists_run_pc_add (h : s.pc + k ≤ s.program.length) :
    ∃ t, run k s = .next t ∧ t.pc = s.pc + k := by
  induction k with
  | zero => exact ⟨s, rfl, rfl⟩
  | succ k ih =>
    obtain ⟨u, hu, hpc⟩ := ih (Nat.le_of_succ_le h)
    obtain ⟨hprog, -⟩ := run_sameParameters hu
    have hleft : u.pc < u.program.length := by rw [hpc, hprog]; exact h
    obtain ⟨t, ht, hpc'⟩ := exists_step_pc_succ hleft
    exact ⟨t, (run_succ_last hu).trans ht, by rw [hpc', hpc, Nat.add_assoc]⟩

end Runs

end Sys2Proof.Machine
end

section
/-! SUPPORT. The statements of the dispatch (40_dispatch.md), settled. -/

namespace Sys2Proof.Proofs

open Sys2Proof Sys2Proof.Machine

/-- Settles O38: the counter after `k` steps is by induction on `k` (`exists_run_pc_add`), and with the
program unchanged it tells the next word and whether the block is halted. -/
theorem runsExecuteInOrderAndHaltAfterTheLastWord :
    Obligations.RunsExecuteInOrderAndHaltAfterTheLastWord := by
  intro s k hk
  obtain ⟨t, ht, hpc⟩ := exists_run_pc_add hk
  obtain ⟨hprog, hwords⟩ := run_sameParameters ht
  refine ⟨t, ht, ⟨hprog, hwords⟩, hpc, ?_, ?_⟩
  · rw [State.fetch, hpc, hprog]
  · rw [State.halted, hpc, hprog, decide_eq_true_iff]
    exact ⟨fun h => hk.antisymm h, fun h => h.ge⟩

/-- Settles O21: by the outcome of the dispatch table (`exists_execute_eq_next`), whose port values
tell the report. -/
theorem executeIsTotalWithTheTablesOutcome : Obligations.ExecuteIsTotalWithTheTablesOutcome := by
  intro d s
  obtain ⟨t, ht, hexec, hrep⟩ := exists_execute_eq_next d s
  refine ⟨t, ht, ?_⟩
  cases ho : outcomeOf d with
  | executed =>
    obtain ⟨hpc, htrace, -⟩ := hexec ho
    exact ⟨hpc, fun _ => htrace, nofun, nofun⟩
  | report r =>
    obtain ⟨-, -, hpc, -, -⟩ := hrep r ho
    cases r with
    | unknownFunction code =>
      exact ⟨hpc, nofun, fun _ => ⟨code, rfl, hrep _ ho⟩, nofun⟩
    | unknownOpcode code =>
      exact ⟨hpc, nofun, nofun, fun _ => hrep _ ho⟩

/-- Settles O33: states that agree on registers and memory give an instruction one effect
(`exec_sameEffect`). -/
theorem executionSeesOnlyRegistersAndMemory : Obligations.ExecutionSeesOnlyRegistersAndMemory := by
  intro i s s' hr hm hn
  obtain ⟨e, h, h'⟩ := exec_sameEffect (AgreeOnSources.of_eq i hr hm hn)
  exact ⟨_, _, h, h', e.regs_applyTo_congr hr, e.mem_applyTo_congr hm⟩

/-- Settles O34, clause by clause from the four things an instruction can do (`exec_cases`). -/
theorem anInstructionWritesAtMostOneLocation :
    Obligations.AnInstructionWritesAtMostOneLocation := by
  intro i s
  obtain ⟨t, ht⟩ := exists_exec_eq_next i s
  refine ⟨t, ht, exec_sameRegsExcept ht, exec_sameMemExcept ht,
    exec_destOf_or_storeAddressOf_eq_none ht, fun hne => ?_, exec_sameParameters ht⟩
  obtain ⟨r, hr⟩ := Option.ne_none_iff_exists'.1 hne
  exact destOf_storeAddressOf_eq_none_of_reportOf hr s

/-- Settles O30: every word decodes to a well-formed instruction, and its step is `step_of_decode`. -/
theorem stepRunsTheDecodedInstruction : Obligations.StepRunsTheDecodedInstruction := by
  intro s w i hw hd
  obtain ⟨j, hj, hwf, -⟩ := exists_decode_wellFormed_encode w
  have hij : i = j := Option.some.inj (hd.symm.trans hj)
  exact ⟨hij ▸ hwf, step_of_decode hw hd⟩

/-- Settles O31: past the last word the fetch answers nothing. -/
theorem haltedBlockHoldsItsState : Obligations.HaltedBlockHoldsItsState :=
  fun _ h => step_of_fetch_none (List.getElem?_eq_none h)

/-- Settles O36: each meaning writes a value formed from the state before it. -/
theorem operandsAreReadBeforeTheDestinationIsWritten :
    Obligations.OperandsAreReadBeforeTheDestinationIsWritten := by
  intro s r imm a ha hsum
  have haddr : s.dataAddress r imm = some a := State.dataAddress_of_sum_eq hsum ha
  refine ⟨⟨_, exec_add s r r r, ?_⟩, ⟨_, exec_lw_in_bounds s r r imm haddr, ?_⟩,
    ⟨_, exec_sw_in_bounds s r r imm haddr, ?_, ?_⟩⟩
  · rw [State.reg_finish, State.reg_setReg_same, wrap32_add]
    exact BitVec.two_mul.symm
  · simp
  · simp
  · simp

end Sys2Proof.Proofs
end

section
/-! SUPPORT. The words of the rows of 30_encoding.md R64 by what they decode to, and what writing a
register with outcome `Executed` leaves of the state (41_register_arithmetic.md R100 to R106). -/

namespace Sys2Proof

/-- The pattern of an R-type row selects exactly the words that decode to its row, with the fields of
the word (R64, R65). -/
theorem and_functMask_eq_iff_decode (w : Word) (c : Code) :
    w &&& 0xFC00003F#32 = c.setWidth 32 ↔
      decode w = some (registerRow (rsField w) (rtField w) (rdField w) c) := by
  rw [and_functMask_eq_iff]
  constructor
  · rintro ⟨hop, rfl⟩
    exact decode_of_opcode_zero hop
  · intro h
    by_cases hop : opcodeField w = 0
    · rw [decode_of_opcode_zero hop, Option.some_inj] at h
      have hfunct := congrArg (functField ∘ encode) h
      simp only [Function.comp, encode_registerRow, functField_encodeR] at hfunct
      exact ⟨hop, hfunct⟩
    · rw [decode_of_opcode_ne_zero hop, Option.some_inj] at h
      have hzero := congrArg (opcodeField ∘ encode) h
      simp only [Function.comp, encode_registerRow, encode_immediateRow, opcodeField_encodeR,
        opcodeField_encodeI] at hzero
      exact absurd hzero hop

namespace Machine

/-- An instruction whose outcome is `Executed` and that writes one register changes that register and
the counter alone. -/
theorem State.setReg_finish_executed_frame (s : State) (rd : RegNo) (v : Word) :
    SameRegsExcept (some rd) s ((s.setReg rd v).finish .executed) ∧
      SameMemExcept none s ((s.setReg rd v).finish .executed) ∧
      EndsExecuted s ((s.setReg rd v).finish .executed) :=
  ⟨fun q hq => State.reg_setReg_other s rd q v fun e => hq (congrArg some e), fun _ _ => rfl, rfl,
    List.append_nil s.trace, rfl, rfl⟩

@[simp] theorem State.reg_setReg_finish (s : State) (rd : RegNo) (v : Word) (o : ExecOutcome) :
    ((s.setReg rd v).finish o).reg rd = v := State.reg_setReg_same s rd v

/-- The difference of two patterns is that of their unsigned readings modulo 2^32 (R106). -/
theorem toNat_sub_eq_emod (a b : Word) :
    ((a - b).toNat : Int) = ((a.toNat : Int) - b.toNat) % 2 ^ 32 := by
  rw [BitVec.toNat_sub]
  omega

/-- The truth value SLT writes, by the signed readings (R105). -/
theorem truthWord_lessThan (a b : Word) :
    truthWord (lessThan a b) = if a.toInt < b.toInt then 1 else 0 := by
  simp only [truthWord, lessThan_iff]

end Machine

end Sys2Proof
end

section
/-! SUPPORT. The statements of register-register arithmetic (41_register_arithmetic.md), settled. Each
takes its words from `and_functMask_eq_iff_decode`, its next state from the law of its meaning, and its
frame from `State.setReg_finish_executed_frame`. -/

namespace Sys2Proof.Proofs

open Sys2Proof Sys2Proof.Machine

/-- Settles O1: the written value is the wrapped sum, whose unsigned reading is `u32_wrap32`. -/
theorem addWritesWrappedSum : Obligations.AddWritesWrappedSum := by
  refine ⟨fun w => and_functMask_eq_iff_decode w 32, fun s rs rt rd =>
    ⟨_, exec_add s rs rt rd, ?_, s.setReg_finish_executed_frame rd _⟩⟩
  rw [State.reg_setReg_finish]
  exact u32_wrap32 _

/-- Settles O2: the written value is the wrapped difference, whose unsigned reading is `u32_wrap32`. -/
theorem subWritesWrappedDifference : Obligations.SubWritesWrappedDifference := by
  refine ⟨fun w => and_functMask_eq_iff_decode w 34, fun s rs rt rd =>
    ⟨_, exec_sub s rs rt rd, ?_, s.setReg_finish_executed_frame rd _⟩⟩
  rw [State.reg_setReg_finish]
  exact u32_wrap32 _

/-- Settles O3: the bits of the written value are those of `&&&`. -/
theorem andWritesBitwiseAnd : Obligations.AndWritesBitwiseAnd := by
  refine ⟨fun w => and_functMask_eq_iff_decode w 36, fun s rs rt rd =>
    ⟨_, exec_and s rs rt rd, fun k _ => ?_, s.setReg_finish_executed_frame rd _⟩⟩
  rw [State.reg_setReg_finish, BitVec.getLsbD_and]

/-- Settles O4: the bits of the written value are those of `|||`. -/
theorem orWritesBitwiseOr : Obligations.OrWritesBitwiseOr := by
  refine ⟨fun w => and_functMask_eq_iff_decode w 37, fun s rs rt rd =>
    ⟨_, exec_or s rs rt rd, fun k _ => ?_, s.setReg_finish_executed_frame rd _⟩⟩
  rw [State.reg_setReg_finish, BitVec.getLsbD_or]

/-- Settles O5: the written value is the truth value of the signed comparison
(`truthWord_lessThan`). -/
theorem sltWritesSignedComparison : Obligations.SltWritesSignedComparison := by
  refine ⟨fun w => and_functMask_eq_iff_decode w 42, fun s rs rt rd =>
    ⟨_, exec_slt s rs rt rd, ?_, s.setReg_finish_executed_frame rd _⟩⟩
  rw [State.reg_setReg_finish, truthWord_lessThan]

/-- Settles O6: the wrapped sum and difference of the signed readings are those of the patterns
(`wrap32_add`, `wrap32_sub`). -/
theorem sumBitsAreTheSameUnsigned : Obligations.SumBitsAreTheSameUnsigned := by
  intro s rs rt rd
  refine ⟨⟨_, exec_add s rs rt rd, ?_⟩, ⟨_, exec_sub s rs rt rd, ?_⟩⟩
  · rw [State.reg_setReg_finish, wrap32_add, BitVec.toNat_add]
  · rw [State.reg_setReg_finish, wrap32_sub, toNat_sub_eq_emod]

end Sys2Proof.Proofs
end

section
/-! SUPPORT. The words of the I-type rows (30_encoding.md R63) by what they decode to. -/

namespace Sys2Proof

/-- A word and the instruction it decodes to have the same opcode. -/
theorem opcodeField_encode_of_decode {w : Word} {i : Instr} (hd : decode w = some i) :
    opcodeField (encode i) = opcodeField w := by
  obtain ⟨j, hj, -, henc⟩ := exists_decode_wellFormed_encode w
  obtain rfl : i = j := Option.some_inj.1 (hd.symm.trans hj)
  rw [henc]
  split
  · exact opcodeField_and_shamtMask w
  · rfl

/-- The pattern of an I-type row selects exactly the words that decode to its row, with the fields of
the word (R63, R65). Opcode 0 is the R-type group's. -/
theorem and_opcodeMask_eq_iff_decode (w : Word) {c : Code} (hc : c ≠ 0) :
    w &&& 0xFC000000#32 = c.setWidth 32 <<< 26 ↔
      decode w = some (immediateRow c (rsField w) (rtField w) (immField w)) := by
  rw [and_opcodeMask_eq_iff]
  constructor
  · rintro rfl
    exact decode_of_opcode_ne_zero hc
  · intro h
    have hop := opcodeField_encode_of_decode h
    rw [encode_immediateRow, opcodeField_encodeI] at hop
    exact hop.symm

end Sys2Proof
end

section
/-! SUPPORT. The statement of immediate arithmetic (42_immediate_arithmetic.md), settled. -/

namespace Sys2Proof.Proofs

open Sys2Proof Sys2Proof.Machine

/-- Settles O7: ADDI's words are those of opcode 8 (`and_opcodeMask_eq_iff_decode`), and the written
value is the wrapped sum with the zero-extended immediate, whose unsigned reading is `u32_wrap32`. -/
theorem addiAddsTheUnsignedImmediate : Obligations.AddiAddsTheUnsignedImmediate := by
  refine ⟨fun w => and_opcodeMask_eq_iff_decode w (c := 8) (by decide), fun s rs rt imm =>
    ⟨_, exec_addi s rs rt imm, ?_, s.setReg_finish_executed_frame rt _⟩⟩
  rw [State.reg_setReg_finish]
  exact u32_wrap32 _

end Sys2Proof.Proofs
end

section
/-! SUPPORT. The readings of the 32-bit sum of a base register and an immediate (43_load_store.md R115),
and what LW and SW answer by their data address. -/

namespace Sys2Proof.Machine

section Readings
variable {a : Nat}

/-- Below 2^31 the signed and the unsigned reading of a word are the same number. -/
theorem toInt_eq_iff_toNat_eq (v : Word) (ha : a < 2 ^ 31) : v.toInt = a ↔ v.toNat = a := by
  have hv := v.isLt
  rw [BitVec.toInt_eq_toNat_cond]
  split <;> omega

/-- The unsigned reading of the wrapped sum is the sum of R115 modulo 2^32. -/
theorem toNat_add_imm_eq_emod (v : Word) (imm : Imm) :
    ((v + imm.setWidth 32).toNat : Int) = (v.toInt + (imm.toNat : Int)) % 2 ^ 32 := by
  have himm : imm.toNat < 2 ^ 32 := imm.isLt.trans (by decide)
  rw [BitVec.toNat_add, BitVec.toNat_setWidth, Nat.mod_eq_of_lt himm, BitVec.toInt_eq_toNat_cond]
  split <;> omega

/-- The sum of R115 lies in `-2^31 .. 2^31 + 2^16 - 2`, so no other sum than `a` wraps to an `a` below
2^31 (D5). -/
theorem toNat_add_imm_eq_iff (v : Word) (imm : Imm) (ha : a < 2 ^ 31) :
    (v + imm.setWidth 32).toNat = a ↔ v.toInt + (imm.toNat : Int) = a := by
  have hlow : -2 ^ 31 ≤ v.toInt := BitVec.le_toInt v
  have hhigh : v.toInt < 2 ^ 31 := BitVec.toInt_lt
  have himm : imm.toNat < 2 ^ 16 := imm.isLt
  have hwrap := toNat_add_imm_eq_emod v imm
  omega

end Readings

section Access
variable {s t : State} {rs rt : RegNo} {imm : Imm} {a : Nat}

theorem reg_of_exec_lw_in_bounds (ha : s.dataAddress rs imm = some a)
    (h : exec (.lw rs rt imm) s = .next t) : t.reg rt = s.readMem a := by
  rw [exec_lw_in_bounds s rs rt imm ha] at h
  cases h
  exact State.reg_setReg_finish s rt _ _

theorem reg_of_exec_lw_out_of_bounds (ha : s.dataAddress rs imm = none)
    (h : exec (.lw rs rt imm) s = .next t) : t.reg rt = s.reg rt := by
  rw [exec_lw_out_of_bounds s rs rt imm ha] at h
  cases h
  exact State.reg_finish s rt _

theorem readMem_of_exec_sw_in_bounds (ha : s.dataAddress rs imm = some a)
    (h : exec (.sw rs rt imm) s = .next t) : t.readMem a = s.reg rt := by
  rw [exec_sw_in_bounds s rs rt imm ha] at h
  cases h
  exact State.readMem_writeMem_same s a _

/-- Every memory word after an SW, by its data address. -/
theorem readMem_of_exec_sw (h : exec (.sw rs rt imm) s = .next t) (a : Nat) :
    t.readMem a = if s.dataAddress rs imm = some a then s.reg rt else s.readMem a := by
  split
  · rename_i ha
    exact readMem_of_exec_sw_in_bounds ha h
  · rename_i ha
    exact exec_sameMemExcept h a (Ne.symm ha)

end Access

end Sys2Proof.Machine
end

section
/-! SUPPORT. The statements of loads and stores (43_load_store.md), settled. -/

namespace Sys2Proof.Proofs

open Sys2Proof Sys2Proof.Machine

/-- Settles O8: LW's words are those of opcode 35, its register is given by the two cases of the data
address, and its frame is that of every instruction with outcome `Executed`. -/
theorem lwLoadsInBoundsAndSkipsOutOfBounds : Obligations.LwLoadsInBoundsAndSkipsOutOfBounds := by
  refine ⟨fun w => and_opcodeMask_eq_iff_decode w (c := 35) (by decide), fun s rs rt imm => ?_⟩
  obtain ⟨t, ht⟩ := exists_exec_eq_next (.lw rs rt imm) s
  refine ⟨t, ht, fun a ha hsum => ?_, fun hout => ?_, exec_sameRegsExcept ht, exec_sameMemExcept ht,
    exec_endsExecuted ht rfl⟩
  · exact reg_of_exec_lw_in_bounds (State.dataAddress_of_sum_eq hsum ha) ht
  · exact reg_of_exec_lw_out_of_bounds (State.dataAddress_of_out_of_bounds hout) ht

/-- Settles O9: SW's words are those of opcode 43, and a word is replaced exactly when it stands at the
data address (`readMem_of_exec_sw`). -/
theorem swStoresInBoundsAndSkipsOutOfBounds : Obligations.SwStoresInBoundsAndSkipsOutOfBounds := by
  refine ⟨fun w => and_opcodeMask_eq_iff_decode w (c := 43) (by decide), fun s rs rt imm => ?_⟩
  obtain ⟨t, ht⟩ := exists_exec_eq_next (.sw rs rt imm) s
  refine ⟨t, ht, fun a => ?_, exec_sameRegsExcept ht, exec_endsExecuted ht rfl⟩
  have haddr := (s.dataAddress_eq_some_iff rs imm a).trans and_comm
  exact (readMem_of_exec_sw ht a).trans (if_congr haddr rfl rfl)

/-- Settles O11: the data address is `a` exactly when the integer sum is, and neither reading of the
wrapped sum differs from that below 2^31 (`toNat_add_imm_eq_iff`, `toInt_eq_iff_toNat_eq`). -/
theorem boundsAreTheSameUnderThreeReadings : Obligations.BoundsAreTheSameUnderThreeReadings := by
  intro s rs imm a ha hlt
  have hint : (s.reg rs).toInt + (imm.toNat : Int) = a ↔ s.dataAddress rs imm = some a :=
    ⟨fun h => State.dataAddress_of_sum_eq h ha, fun h => ((s.dataAddress_eq_some_iff rs imm a).1 h).1⟩
  have hunsigned := (toNat_add_imm_eq_iff (s.reg rs) imm hlt).trans hint
  exact ⟨hint, hunsigned, (toInt_eq_iff_toNat_eq _ hlt).trans hunsigned⟩

end Sys2Proof.Proofs
end

section
/-! SUPPORT. The words of the two default rows (30_encoding.md R63, R64) by what they decode to, and what
an instruction answers by its report (44_branch_and_unknown.md R128 to R131). -/

namespace Sys2Proof

open Sys2Proof.Machine

theorem toNat_opcodeField (w : Word) : (opcodeField w).toNat = w.toNat / 2 ^ 26 := by
  have hlt : w.toNat / 2 ^ 26 < 2 ^ 6 := by omega
  rw [opcodeField_eq_ofNat, BitVec.toNat_ofNat, Nat.mod_eq_of_lt hlt]

theorem toNat_functField (w : Word) : (functField w).toNat = w.toNat % 2 ^ 6 := by
  rw [functField_eq_ofNat, BitVec.toNat_ofNat, Nat.mod_mod]

/-- The condition of the default row of opcode 0, in the numbers of R129. -/
theorem wellFormed_unknownFunction_iff (rs rt rd : RegNo) (funct : Code) :
    wellFormed (.unknownFunction rs rt rd funct) = true ↔
      funct.toNat ∉ [32, 34, 36, 37, 42] := by
  simp [wellFormed, namedFunctions, BitVec.toNat_eq]

/-- The condition of the default row of the other opcodes, in the numbers of R128. -/
theorem wellFormed_unknownOpcode_iff (opcode : Code) (rs rt : RegNo) (imm : Imm) :
    wellFormed (.unknownOpcode opcode rs rt imm) = true ↔
      opcode.toNat ∉ [0, 4, 5, 8, 35, 43] := by
  simp [wellFormed, namedOpcodes, BitVec.toNat_eq]

theorem wellFormed_of_decode {w : Word} {i : Instr} (hd : decode w = some i) :
    wellFormed i = true := by
  obtain ⟨j, hj, hwf, -⟩ := exists_decode_wellFormed_encode w
  obtain rfl : i = j := Option.some_inj.1 (hd.symm.trans hj)
  exact hwf

/-- The words of the default row of opcode 0: its opcode, and a function code with no row of its own
(R129). -/
theorem decode_eq_unknownFunction_iff (w : Word) :
    decode w = some (.unknownFunction (rsField w) (rtField w) (rdField w) (functField w)) ↔
      opcodeField w = 0 ∧ (functField w).toNat ∉ [32, 34, 36, 37, 42] := by
  rw [← wellFormed_unknownFunction_iff (rsField w) (rtField w) (rdField w)]
  constructor
  · intro hd
    have hop := opcodeField_encode_of_decode hd
    rw [encode, opcodeField_encodeR] at hop
    exact ⟨hop.symm, wellFormed_of_decode hd⟩
  · rintro ⟨hop, hwf⟩
    rw [decode_of_opcode_zero hop, registerRow_of_unnamed _ _ _ hwf]

/-- The words of the default row of the other opcodes: an opcode with no row of its own (R128). -/
theorem decode_eq_unknownOpcode_iff (w : Word) :
    decode w = some (.unknownOpcode (opcodeField w) (rsField w) (rtField w) (immField w)) ↔
      (opcodeField w).toNat ∉ [0, 4, 5, 8, 35, 43] := by
  rw [← wellFormed_unknownOpcode_iff (opcodeField w) (rsField w) (rtField w) (immField w)]
  refine ⟨wellFormed_of_decode, fun hwf => ?_⟩
  rw [decode_of_opcode_ne_zero (opcode_ne_zero_of_wellFormed _ _ _ hwf),
    immediateRow_of_unnamed _ _ _ hwf]

/-- The decoder never yields `Invalid` (R56). -/
theorem decodeForm_ne_invalid (w : Word) : decodeForm w ≠ .invalid := by
  intro h
  by_cases hop : opcodeField w = 0
  · cases (decodeForm_of_opcode_zero hop).symm.trans h
  · cases (decodeForm_of_opcode_ne_zero hop).symm.trans h

/-- An `ImmediateForm` that the decoder yields has another opcode than 0 (R53). -/
theorem decodeForm_ne_immediateForm_zero (w : Word) (rs rt : RegNo) (imm : Imm) :
    decodeForm w ≠ .immediateForm 0 rs rt imm := by
  intro h
  by_cases hop : opcodeField w = 0
  · cases (decodeForm_of_opcode_zero hop).symm.trans h
  · rw [decodeForm_of_opcode_ne_zero hop] at h
    injection h with hzero
    exact hop hzero

namespace Machine

variable {i : Instr} {r : Report}

/-- An instruction with a report completes and does nothing but report it (R131). -/
theorem exists_exec_onlyReports (hr : reportOf i = some r) (s : State) :
    ∃ t, exec i s = .next t ∧ OnlyReports r s t := by
  obtain ⟨t, ht⟩ := exists_exec_eq_next i s
  exact ⟨t, ht, exec_onlyReports ht hr⟩

/-- An instruction whose report depends on `p` leaves the trace alone or only reports, as `p` says. -/
theorem exec_trace_or_onlyReports {s t : State} {p : Prop} [Decidable p] (h : exec i s = .next t)
    (hr : reportOf i = if p then none else some r) :
    if p then t.trace = s.trace else OnlyReports r s t := by
  split
  · rename_i hp
    obtain ⟨-, htrace, -⟩ := exec_endsExecuted h (hr.trans (if_pos hp))
    exact htrace
  · rename_i hp
    exact exec_onlyReports h (hr.trans (if_neg hp))

end Machine

end Sys2Proof
end

section
/-! SUPPORT. The statements of the encodings that do not execute (44_branch_and_unknown.md), settled. -/

namespace Sys2Proof.Proofs

open Sys2Proof Sys2Proof.Machine

/-- Settles O15: BEQ's words are those of opcode 4, and it has a report. -/
theorem beqOnlyReports : Obligations.BeqOnlyReports :=
  ⟨fun w => and_opcodeMask_eq_iff_decode w (c := 4) (by decide),
    fun s _ _ _ => exists_exec_onlyReports rfl s⟩

/-- Settles O16: BNE's words are those of opcode 5, and it has a report. -/
theorem bneOnlyReports : Obligations.BneOnlyReports :=
  ⟨fun w => and_opcodeMask_eq_iff_decode w (c := 5) (by decide),
    fun s _ _ _ => exists_exec_onlyReports rfl s⟩

/-- Settles O17: the row's words are given by `decode_eq_unknownFunction_iff`, and it has a report at
every code. -/
theorem unknownFunctionOnlyReports : Obligations.UnknownFunctionOnlyReports := by
  refine ⟨fun w => ?_, fun s _ _ _ _ => exists_exec_onlyReports rfl s⟩
  rw [← opcodeField_eq_zero_iff, ← toNat_functField]
  exact (decode_eq_unknownFunction_iff w).symm

/-- Settles O18: the row's words are given by `decode_eq_unknownOpcode_iff`, and it has a report at
every code. -/
theorem unknownOpcodeOnlyReports : Obligations.UnknownOpcodeOnlyReports := by
  refine ⟨fun w => ?_, fun s _ _ _ _ => exists_exec_onlyReports rfl s⟩
  rw [← toNat_opcodeField]
  exact (decode_eq_unknownOpcode_iff w).symm

/-- Settles O19: neither form is one of the decoder's two, and an opcode 0 selects the default row. -/
theorem undecodableFormsOnlyReport : Obligations.UndecodableFormsOnlyReport := by
  refine ⟨fun w => ⟨decodeForm_ne_invalid w, decodeForm_ne_immediateForm_zero w⟩,
    fun s rs rt imm => ⟨execute_invalid_onlyReports s, ?_⟩⟩
  have hrow : (Decoded.immediateForm 0 rs rt imm).row = some (.unknownOpcode 0 rs rt imm) := rfl
  rw [execute_of_row hrow]
  exact exists_exec_onlyReports rfl s

/-- Settles O20, by the two classes of words: the code tells whether the selected row has a report
(`reportOf_registerRow`, `reportOf_immediateRow`). -/
theorem stepsReportExactlyTheOtherEncodings : Obligations.StepsReportExactlyTheOtherEncodings := by
  intro s w hw
  obtain ⟨i, hd⟩ := exists_decode_eq_some w
  obtain ⟨t, ht⟩ := exists_exec_eq_next i s
  refine ⟨t, (step_of_decode hw hd).trans ht, exec_pc ht, ?_⟩
  rw [← opcodeField_eq_ofNat, ← functField_eq_ofNat, ← toNat_functField, ← toNat_opcodeField]
  split
  · rename_i hzero
    have hop : opcodeField w = 0 := BitVec.eq_of_toNat_eq hzero
    obtain rfl := Option.some_inj.1 (hd.symm.trans (decode_of_opcode_zero hop))
    exact exec_trace_or_onlyReports ht (reportOf_registerRow _ _ _ _)
  · rename_i hne
    have hop : opcodeField w ≠ 0 := fun h => hne (congrArg BitVec.toNat h)
    obtain rfl := Option.some_inj.1 (hd.symm.trans (decode_of_opcode_ne_zero hop))
    exact exec_trace_or_onlyReports ht (reportOf_immediateRow _ _ _ _)

end Sys2Proof.Proofs
end

section
/-! SUPPORT. What the host boundary computes (70_reset_and_hazards.md R163 to R167): the value of a
literal digit by digit, the program the tokens build word by word, and the output register by register. -/

namespace Sys2Proof.Machine

section Literals
variable (first d : Fin 16) (rest : List (Fin 16))

@[simp] theorem literalValue_nil : literalValue first [] = first.val := rfl

/-- A further digit, the least significant one, shifts the others up by one position. -/
@[simp] theorem literalValue_concat :
    literalValue first (rest ++ [d]) = 16 * literalValue first rest + d.val :=
  List.foldl_concat ..

theorem literalValue_eq_ofDigits :
    literalValue first rest = Nat.ofDigits 16 ((first :: rest).map Fin.val).reverse := by
  induction rest using List.reverseRecOn with
  | nil => simp
  | append_singleton rest d ih =>
    have hreverse : ((first :: (rest ++ [d])).map Fin.val).reverse =
        d.val :: ((first :: rest).map Fin.val).reverse := by simp
    rw [literalValue_concat, hreverse, Nat.ofDigits_cons, ih, Nat.add_comm]

end Literals

section Tokens
variable {ts : List Token} {p : List Word} {n : Nat} {s : State}

/-- The word of one token, none for a malformed one. -/
def Token.word : Token → Option Word
  | .literal first rest => some (literalWord first rest)
  | .malformed => none

@[simp] theorem Token.word_literal (first : Fin 16) (rest : List (Fin 16)) :
    (Token.literal first rest).word = some (literalWord first rest) := rfl

@[simp] theorem Token.word_malformed : Token.malformed.word = none := rfl

@[simp] theorem programOf_nil : programOf [] = some [] := rfl

@[simp] theorem programOf_malformed_cons : programOf (.malformed :: ts) = none := rfl

@[simp] theorem programOf_literal_cons (first : Fin 16) (rest : List (Fin 16)) :
    programOf (.literal first rest :: ts) = (programOf ts).map (literalWord first rest :: ·) := rfl

theorem programOf_eq_none_iff : programOf ts = none ↔ .malformed ∈ ts := by
  induction ts with
  | nil => simp
  | cons t ts ih =>
    cases t with
    | literal first rest => simp [ih]
    | malformed => simp

/-- The program is the list of the tokens' words, in the tokens' order. -/
theorem map_word_of_programOf (h : programOf ts = some p) : ts.map Token.word = p.map some := by
  induction ts generalizing p with
  | nil =>
    obtain rfl : [] = p := Option.some.inj h
    rfl
  | cons t ts ih =>
    cases t with
    | literal first rest =>
      obtain ⟨q, hq, rfl⟩ := Option.map_eq_some_iff.1 h
      simp [ih hq]
    | malformed => simp at h

theorem length_of_programOf (h : programOf ts = some p) : p.length = ts.length := by
  simpa using (congrArg List.length (map_word_of_programOf h)).symm

theorem getElem?_of_programOf {k : Nat} {t : Token} (h : programOf ts = some p)
    (hk : ts[k]? = some t) : p[k]? = t.word := by
  have hword : (ts.map Token.word)[k]? = (p.map some)[k]? := by rw [map_word_of_programOf h]
  obtain ⟨w, hw, ht⟩ : ∃ w, p[k]? = some w ∧ some w = t.word := by simpa [hk] using hword
  exact hw.trans ht

theorem boot_eq_none_iff : boot ts n = none ↔ .malformed ∈ ts :=
  Option.map_eq_none_iff.trans programOf_eq_none_iff

theorem boot_eq_some_iff : boot ts n = some s ↔ ∃ p, programOf ts = some p ∧ State.load p n = s :=
  Option.map_eq_some_iff

end Tokens

@[simp] theorem State.length_output (s : State) : s.output.length = Config.numRegs :=
  List.length_ofFn

theorem State.getElem?_output (s : State) (r : RegNo) :
    s.output[r.toNat]? = some (r.toNat, s32 (s.reg r)) := by
  have hr : r.toNat < Config.numRegs := r.isLt
  exact (List.getElem?_ofFn ..).trans (dif_pos hr)

end Sys2Proof.Machine
end

section
/-! SUPPORT. The statements of the host boundary (70_reset_and_hazards.md), settled. -/

namespace Sys2Proof.Proofs

open Sys2Proof Sys2Proof.Machine

/-- Settles O43: the word is the value of `literalValue_eq_ofDigits` cut to 32 bits. -/
theorem literalsArePositionalAndTruncated : Obligations.LiteralsArePositionalAndTruncated := by
  intro first rest
  rw [← literalValue_eq_ofDigits]
  exact BitVec.toNat_ofNat _ _

/-- Settles O44: a started block is the load of the program the tokens build, whose length and words
are those of the tokens (`length_of_programOf`, `getElem?_of_programOf`). -/
theorem tokensBuildTheProgramOrAbort : Obligations.TokensBuildTheProgramOrAbort := by
  refine fun ts n => ⟨boot_eq_none_iff, fun s hs => ?_⟩
  obtain ⟨p, hp, rfl⟩ := boot_eq_some_iff.1 hs
  exact ⟨length_of_programOf hp, State.pc_load p n, State.memWords_load p n,
    fun _ _ _ hk => getElem?_of_programOf hp hk⟩

/-- Settles O42: the output lists the register file in index order (`State.getElem?_output`). -/
theorem outputListsTheSignedRegisters : Obligations.OutputListsTheSignedRegisters :=
  fun s => ⟨s.length_output, s.getElem?_output⟩

end Sys2Proof.Proofs
end
